-- ==== Sys2Proof/Word.lean ====
section
/-! DEFINITION. The two widths of data the engine handles (00_scope.md rule R12): 32-bit words and 8-bit bytes, all unsigned. -/

namespace Sys2Proof

/-- A "word" of 00_scope.md rule R12: 32 bits, unsigned, with addition modulo 2^32 (rule R13). -/
abbrev Word := BitVec 32

/-- A "byte" of 00_scope.md rule R12: 8 bits. -/
abbrev Byte := BitVec 8

end Sys2Proof
end

