-- ==== Sys2Proof/Machine/Mixing.lean ====
section
/-! DEFINITION. The word functions of SHA-256 (00_scope.md rule R13, 41_compression.md rules R141 and R143). -/

namespace Sys2Proof.Machine

/-- `SHR(x, n)`: logical right shift, filling with zeros (00_scope.md rule R13). -/
def shr (x : Word) (n : Nat) : Word := x >>> n

/-- `ROTR(x, n) = SHR(x, n) | (x << (32 - n))`, for 1 ≤ n ≤ 31 (00_scope.md rule R13). -/
def rotr (x : Word) (n : Nat) : Word := shr x n ||| (x <<< (32 - n))

/-- `σ0` (41_compression.md rule R141). -/
def smallSigma0 (x : Word) : Word := rotr x 7 ^^^ rotr x 18 ^^^ shr x 3

/-- `σ1` (41_compression.md rule R141). -/
def smallSigma1 (x : Word) : Word := rotr x 17 ^^^ rotr x 19 ^^^ shr x 10

/-- `Ch` (41_compression.md rule R143). -/
def choice (x y z : Word) : Word := (x &&& y) ^^^ (~~~x &&& z)

/-- `Maj` (41_compression.md rule R143). -/
def majority (x y z : Word) : Word := (x &&& y) ^^^ (x &&& z) ^^^ (y &&& z)

/-- `Σ0` (41_compression.md rule R143). -/
def bigSigma0 (x : Word) : Word := rotr x 2 ^^^ rotr x 13 ^^^ rotr x 22

/-- `Σ1` (41_compression.md rule R143). -/
def bigSigma1 (x : Word) : Word := rotr x 6 ^^^ rotr x 11 ^^^ rotr x 25

end Sys2Proof.Machine
end

