-- ==== Sys2Proof/Machine/Operands.lean ====
section
/-! DEFINITION. Byte order and operand assembly: big-endian everywhere (20_memory.md rule R53), the byte lanes of an UPDATE
(30_encoding.md rules R72 and R73). -/

namespace Sys2Proof.Machine

/-- `be32(b0, b1, b2, b3)` of 00_scope.md rule R14: the first byte is the most significant. -/
def be32 (b0 b1 b2 b3 : Byte) : Word := b0 ++ b1 ++ b2 ++ b3

/-- `be64bytes(x)` of 00_scope.md rule R14: the 8 bytes of a 64-bit value, the most significant first. -/
def be64bytes (x : BitVec 64) : List Byte := (List.range 8).map fun i => x.extractLsb' (56 - 8 * i) 8

/-- Byte lane `j` of a word, `v[31-8j : 24-8j]`, for `j` in 0..3 (30_encoding.md rule R72). -/
def lane (v : Word) (j : Nat) : Byte := v.extractLsb' (24 - 8 * j) 8

/-- The byte list an UPDATE carries (30_encoding.md rule R73): lanes 0 to CNT-1 of DATA, in that order. -/
def updateBytes (cnt : BitVec 3) (data : Word) : List Byte := (List.range cnt.toNat).map (lane data)

/-- A word as 4 big-endian bytes (20_memory.md rule R53 item 3). -/
def wordBytes (v : Word) : List Byte := (List.range 4).map (lane v)

end Sys2Proof.Machine
end

