-- ==== Sys2Proof/Syntax.lean ====
section
/-! DEFINITION. The instructions: one constructor per row of spec/opcode_table.json (30_encoding.md rules R74 and R80). -/

namespace Sys2Proof

/-- The four operations a transaction can ask for. An illegal command word is no operation: the decoder rejects it by name. -/
inductive Instr where
  /-- INIT (40_commands.md rule R110): no operands, its DATA word is ignored (30_encoding.md rule R77). -/
  | init
  /-- UPDATE (rule R111): `cnt` is CMD[6:4], the number of message bytes; `data` is the DATA word with its four byte lanes. -/
  | update (cnt : BitVec 3) (data : Word)
  /-- FINAL (rule R112): no operands, its DATA word is ignored. -/
  | final
  /-- RD (rule R113): read the register word at the 8-bit byte address `raddr`. -/
  | rd (raddr : BitVec 8)
  deriving DecidableEq, Repr

end Sys2Proof
end

