-- ==== Sys2Proof/WellFormed.lean ====
section
/-! DEFINITION. Which instruction terms stand for something the host can send. -/

namespace Sys2Proof

/-- The one check there is: an UPDATE carries 0 to 4 bytes (30_encoding.md rules R71 and R75). INIT and FINAL have no
operands and every RADDR is legal (rules R77 and R80). -/
def Instr.wf : Instr → Bool
  | .init => true
  | .update cnt _ => decide (cnt ≤ 4)
  | .final => true
  | .rd _ => true

/-- `Instr.wf` as a proposition. -/
abbrev Instr.WellFormed (i : Instr) : Prop := i.wf = true

end Sys2Proof
end

