-- ==== Sys2Proof/Decode.lean ====
section
/-! DEFINITION. Transactions, the decoder (total, rejecting by name) and the encoder (30_encoding.md). A transaction is taken
whole: a command is CMD and DATA together, never split (rules R70 and R78), so there is no list of bytes to fetch from. -/

namespace Sys2Proof

/-- The two kinds of transaction of 30_encoding.md rule R70. -/
inductive Transaction where
  /-- A command: the command word CMD and the data word DATA, one indivisible 64-bit transfer. -/
  | command (cmd data : Word)
  /-- A read: the 8-bit byte address RADDR. -/
  | read (raddr : BitVec 8)
  deriving DecidableEq, Repr

/-- Why a command word is illegal, in the words of 30_encoding.md rule R76. -/
inductive DecodeReject where
  /-- A bit of RSV, CMD[31:7], is set. -/
  | reservedBitSet
  /-- OP, CMD[3:0], is 0x0 or 0x4 to 0xF. -/
  | reservedOpcode
  /-- UPDATE with CNT 5, 6 or 7, or INIT or FINAL with CNT not 0. -/
  | illegalCount
  deriving DecidableEq, Repr

/-- What a transaction decodes to (30_encoding.md rule R81): an instruction, or ILLEGAL with the reason. -/
inductive DecodeResult where
  /-- The transaction asks for this instruction. -/
  | instr (i : Instr)
  /-- The command is ILLEGAL. -/
  | illegal (why : DecodeReject)
  deriving DecidableEq, Repr

/-- OP, CMD[3:0] (30_encoding.md rule R71). -/
abbrev cmdOp (cmd : Word) : BitVec 4 := cmd.extractLsb' 0 4

/-- CNT, CMD[6:4] (30_encoding.md rule R71). -/
abbrev cmdCnt (cmd : Word) : BitVec 3 := cmd.extractLsb' 4 3

/-- RSV, CMD[31:7] (30_encoding.md rule R71). -/
abbrev cmdRsv (cmd : Word) : BitVec 25 := cmd.extractLsb' 7 25

/-- The legality predicate of 30_encoding.md rule R75. It reads CMD only. -/
def legalCmd (cmd : Word) : Bool :=
  cmdRsv cmd == 0 &&
    ((cmdOp cmd == 1 && cmdCnt cmd == 0) ||
     (cmdOp cmd == 2 && decide (cmdCnt cmd ≤ 4)) ||
     (cmdOp cmd == 3 && cmdCnt cmd == 0))

/-- Decoding of a command (30_encoding.md rules R71 to R76): the opcode map of rule R74, every other word rejected by name. -/
def decodeCommand (cmd data : Word) : DecodeResult :=
  if cmdRsv cmd ≠ 0 then .illegal .reservedBitSet
  else if cmdOp cmd = 1 then
    if cmdCnt cmd = 0 then .instr .init else .illegal .illegalCount
  else if cmdOp cmd = 2 then
    if cmdCnt cmd ≤ 4 then .instr (.update (cmdCnt cmd) data) else .illegal .illegalCount
  else if cmdOp cmd = 3 then
    if cmdCnt cmd = 0 then .instr .final else .illegal .illegalCount
  else .illegal .reservedOpcode

/-- Decoding of any transaction. A read has no illegal form (30_encoding.md rule R80). -/
def decode : Transaction → DecodeResult
  | .command cmd data => decodeCommand cmd data
  | .read raddr => .instr (.rd raddr)

/-- CMD from its fields (30_encoding.md rule R71), the reserved bits 0. -/
def packCmd (cnt : BitVec 3) (op : BitVec 4) : Word := (0 : BitVec 25) ++ cnt ++ op

/-- The transaction of an instruction (30_encoding.md rules R79, R80 and R82: DATA is 0 for INIT and FINAL). -/
def encode : Instr → Transaction
  | .init => .command (packCmd 0 1) 0
  | .update cnt data => .command (packCmd cnt 2) data
  | .final => .command (packCmd 0 3) 0
  | .rd raddr => .read raddr

/-- The transaction whose bits are `w`, bit 0 the least significant bit of the first word: an 8-bit row of
spec/opcode_table.json is a read address; a 32-bit row is CMD, and the bits above it, DATA, are `w`'s own. -/
def transactionOfBits (nbits w : Nat) : Transaction :=
  if nbits ≤ 8 then .read (BitVec.ofNat 8 w)
  else .command (BitVec.ofNat 32 w) (BitVec.ofNat 32 (w / 2 ^ 32))

/-- The instruction the decoder reads from a word of spec/opcode_table.json, `none` where it rejects it. -/
def decodeTableWord (nbits w : Nat) : Option Instr :=
  match decode (transactionOfBits nbits w) with
  | .instr i => some i
  | .illegal _ => none

end Sys2Proof
end

