-- ==== Sys2Proof/Machine/State.lean ====
section
/-! DEFINITION. The state of one engine instance (10_state.md rule R20) with the two fields through which the model meets the
host, the reasons a step could stop, and the state after reset (10_state.md rule R40). -/

namespace Sys2Proof.Machine

/-- PHASE, the call-sequence state (10_state.md rule R27). The values 5, 6 and 7 are never held, so they are left out
(93_implementation_defined.md I9; assumption log 6). -/
inductive Phase where
  /-- 0: no INIT since reset. -/
  | uninit
  /-- 1: INIT done, no UPDATE since. -/
  | ready
  /-- 2: at least one UPDATE since INIT. -/
  | absorbing
  /-- 3: FINAL done, the digest is readable. -/
  | finalized
  /-- 4: a usage error was detected. -/
  | fault
  deriving DecidableEq, Repr

/-- ERRCODE, the cause of the first usage error since the last INIT or reset (10_state.md rule R28, 60_exceptions.md rule
R160). The values 6 to 15 are never produced, so they are left out (93_implementation_defined.md I9; assumption log 6). -/
inductive ErrCode where
  /-- 0: no usage error since the last INIT or reset. -/
  | none
  /-- 1: a command that is not legal. -/
  | illegalCmd
  /-- 2: UPDATE in UNINIT. -/
  | updateBeforeInit
  /-- 3: FINAL in UNINIT. -/
  | finalBeforeInit
  /-- 4: UPDATE in FINALIZED. -/
  | updateAfterFinal
  /-- 5: FINAL in FINALIZED. -/
  | finalAfterFinal
  deriving DecidableEq, Repr

/-- The eight working variables of the compression core (10_state.md rule R30). -/
structure WorkVars where
  a : Word
  b : Word
  c : Word
  d : Word
  e : Word
  f : Word
  g : Word
  h : Word
  deriving DecidableEq, Repr

/-- What the host does to the engine, one at a time. -/
inductive HostEvent where
  /-- A command or a read, served whole in one step (20_memory.md rules R55 and R56). -/
  | serve (tr : Transaction)
  /-- The reset input (70_reset_and_hazards.md rule R190), asserted between transactions (`none`) or while the command
  `inProgress` is being carried out, which is then abandoned. -/
  | reset (inProgress : Option Transaction)
  deriving DecidableEq, Repr

/-- Why the machine would stop. Nothing does: the engine has no runtime faults (60_exceptions.md rule R166), and FAULT is a
phase in which every command has a result (rule R175). So the type has no constructor, which is safe: no meaning can raise one. -/
inductive Fault where
  deriving DecidableEq, Repr

/-- Why an instruction would have no meaning. -/
inductive Refusal where
  /-- Raised by an arm of `exec` whose instruction has no meaning yet; no arm is in that state. Safe: a refused step proves
  nothing about the hardware. -/
  | notModelled (mnemonic : String)
  deriving DecidableEq, Repr

/-- One engine instance (10_state.md rule R20) and its two ports. K is a constant ROM and stands in Machine/Constants.lean. -/
structure State where
  /-- H[0..7], the hash state (rule R21). -/
  h : Vector Word 8
  /-- BUF[0..63], the block buffer (rule R23). -/
  buf : Vector Byte 64
  /-- BUFCNT, the count of pending bytes in BUF (rule R24). -/
  bufcnt : BitVec 6
  /-- BITLEN, the message length in bits modulo 2^64 (rule R25). -/
  bitlen : BitVec 64
  /-- PHASE (rule R27). -/
  phase : Phase
  /-- ERRCODE (rule R28). -/
  errcode : ErrCode
  /-- W[0..63], the message schedule, scratch (rule R29; between commands: assumption log 4). -/
  w : Vector Word 64
  /-- The working variables, scratch (rule R30; between commands: assumption log 4). -/
  vars : WorkVars
  /-- The round counter, scratch (rule R30; between commands: assumption log 4). -/
  t : Fin 64
  /-- The model's own: what the host has issued and the engine has not accepted yet, the next to be accepted first
  (20_memory.md rules R55 and R57; assumption log 1). -/
  pending : List HostEvent
  /-- The model's own: the last answer of the read port, RDATA (30_encoding.md rule R70; assumption log 2). -/
  rdata : Word
  deriving DecidableEq, Repr

/-- The engine right after reset (10_state.md rule R40): PHASE UNINIT, ERRCODE, BUFCNT and BITLEN 0. The spec gives H, BUF, W,
the working variables and t no value; the model holds 0 in them (DESIGN CHOICE, unsafe, assumption log 3). Nothing is pending
and RDATA is 0 (DESIGN CHOICE, assumption logs 1 and 2). -/
def State.reset : State where
  h := Vector.replicate 8 0
  buf := Vector.replicate 64 0
  bufcnt := 0
  bitlen := 0
  phase := .uninit
  errcode := .none
  w := Vector.replicate 64 0
  vars := ⟨0, 0, 0, 0, 0, 0, 0, 0⟩
  t := 0
  pending := []
  rdata := 0

end Sys2Proof.Machine
end

