-- ==== Sys2Proof/Machine/Compression.lean ====
section
/-! DEFINITION. The compression core (41_compression.md): the message schedule, the 64 rounds, the accumulate step, and
`compress`, which applies them to the state. -/

namespace Sys2Proof.Machine

/-- `W[0..15]` from a block (41_compression.md rule R140), at the head of a 64-word array whose other words `scheduleUpTo`
fills in. -/
def blockWords (B : Vector Byte 64) : Vector Word 64 :=
  Vector.ofFn fun t : Fin 64 =>
    if h : t.val < 16 then be32 B[4 * t.val] B[4 * t.val + 1] B[4 * t.val + 2] B[4 * t.val + 3] else 0

/-- The schedule with `W[0 .. n+15]` filled in: the recurrence of 41_compression.md rule R142 for `t = 16, …, n + 15`. -/
def scheduleUpTo (B : Vector Byte 64) : (n : Nat) → n ≤ 48 → Vector Word 64
  | 0, _ => blockWords B
  | n + 1, hn =>
    let W := scheduleUpTo B n (Nat.le_of_succ_le hn)
    W.set (n + 16) (smallSigma1 W[n + 14] + W[n + 9] + smallSigma0 W[n + 1] + W[n])

/-- The whole message schedule `W[0..63]` of a block (41_compression.md rules R140 and R142). Like the two definitions after it
that run a loop of fixed length it is irreducible, so that no proof unfolds the loop by accident; its equation is
`schedule_eq`. -/
@[irreducible] def schedule (B : Vector Byte 64) : Vector Word 64 := scheduleUpTo B 48 (Nat.le_refl 48)

/-- The working variables before round 0 (41_compression.md rule R144). -/
def initVars (H : Vector Word 8) : WorkVars := ⟨H[0], H[1], H[2], H[3], H[4], H[5], H[6], H[7]⟩

/-- One round with the round constant `k` and the schedule word `w` (41_compression.md rule R145). -/
def roundStep (k w : Word) (v : WorkVars) : WorkVars :=
  let T1 := v.h + bigSigma1 v.e + choice v.e v.f v.g + k + w
  let T2 := bigSigma0 v.a + majority v.a v.b v.c
  { a := T1 + T2, b := v.a, c := v.b, d := v.c, e := v.d + T1, f := v.e, g := v.f, h := v.g }

/-- The working variables after rounds `0, …, n - 1` (41_compression.md rule R145). -/
def varsAfter (W : Vector Word 64) (H : Vector Word 8) : (n : Nat) → n ≤ 64 → WorkVars
  | 0, _ => initVars H
  | n + 1, hn => roundStep roundConstants[n] W[n] (varsAfter W H n (Nat.le_of_succ_le hn))

/-- The accumulate step (41_compression.md rule R146). -/
def accumulate (H : Vector Word 8) (v : WorkVars) : Vector Word 8 :=
  #v[H[0] + v.a, H[1] + v.b, H[2] + v.c, H[3] + v.d, H[4] + v.e, H[5] + v.f, H[6] + v.g, H[7] + v.h]

/-- The working variables after round 63 of compressing the block `B` where the hash state is `H` (41_compression.md rule R145). -/
@[irreducible] def finalVars (B : Vector Byte 64) (H : Vector Word 8) : WorkVars :=
  varsAfter (schedule B) H 64 (Nat.le_refl 64)

/-- The hash state that compressing the block `B` leaves where it was `H` (41_compression.md rule R147). -/
@[irreducible] def compressHash (B : Vector Byte 64) (H : Vector Word 8) : Vector Word 8 := accumulate H (finalVars B H)

/-- `compress(B)` (41_compression.md rule R147): it writes H and the scratch state W, a..h and t, and nothing else. The scratch
holds what the rule's own steps leave there: the schedule, the working variables after round 63, and the last round's number
(DEDUCED, assumption log 4). -/
def compress (B : Vector Byte 64) (s : State) : State :=
  { s with
    h := compressHash B s.h
    w := schedule B
    vars := finalVars B s.h
    t := 63 }

end Sys2Proof.Machine
end

