-- ==== Sys2Proof/Machine/Ops.lean ====
section
/-! DEFINITION. The named operations the commands share: the buffer primitives and padding (40_commands.md rules R100 to R103),
the hashing state INIT loads (rule R110), the usage error, which is the engine's only exception (60_exceptions.md rule R161),
the reset event (70_reset_and_hazards.md rule R190), and the answer of the read port (40_commands.md rule R113). -/

namespace Sys2Proof.Machine

/-- `BUF <- buf`. -/
def setBuf (buf : Vector Byte 64) (s : State) : State := { s with buf := buf }

/-- `BUFCNT <- n`. -/
def setBufcnt (n : BitVec 6) (s : State) : State := { s with bufcnt := n }

/-- `BITLEN <- L`. -/
def setBitlen (L : BitVec 64) (s : State) : State := { s with bitlen := L }

/-- `PHASE <- p`. -/
def setPhase (p : Phase) (s : State) : State := { s with phase := p }

/-- What the host has yet to issue becomes `evs` (the model's own field, assumption log 1). -/
def setPending (evs : List HostEvent) (s : State) : State := { s with pending := evs }

/-- What BUF holds once `BUF[BUFCNT] <- b` is done (40_commands.md rule R100). -/
def bufWith (b : Byte) (s : State) : Vector Byte 64 := s.buf.set s.bufcnt.toNat b s.bufcnt.isLt

/-- `place(b)` (40_commands.md rule R100): append one byte, and compress when it is the 64th. The count 64 is never held. -/
def place (b : Byte) (s : State) : State :=
  let n := s.bufcnt.toNat + 1
  let filled := setBuf (bufWith b s) s
  if n = 64 then setBufcnt 0 (compress filled.buf filled) else setBufcnt (BitVec.ofNat 6 n) filled

/-- `absorb(b)` (40_commands.md rule R101): place one message byte and count its 8 bits modulo 2^64. -/
def absorb (b : Byte) (s : State) : State := setBitlen (s.bitlen + 8) (place b s)

/-- Place each byte of a list, in order. -/
def placeAll (bytes : List Byte) (s : State) : State := bytes.foldl (fun s b => place b s) s

/-- Absorb each byte of a list, in order (40_commands.md rule R111). -/
def absorbAll (bytes : List Byte) (s : State) : State := bytes.foldl (fun s b => absorb b s) s

/-- `pad(L, n) = [0x80] ++ [0x00] * z ++ be64bytes(L)` with `z = (55 - n) mod 64` (40_commands.md rule R102). The 6-bit
subtraction is that remainder. -/
def pad (L : BitVec 64) (n : BitVec 6) : List Byte :=
  (0x80 : Byte) :: (List.replicate ((55 : BitVec 6) - n).toNat (0 : Byte) ++ be64bytes L)

/-- `flush` (40_commands.md rule R103): place the padding of the message length and the fill count as they stand. -/
def flush (s : State) : State := placeAll (pad s.bitlen s.bufcnt) s

/-- What INIT writes (40_commands.md rule R110). The scratch state is unchanged (10_state.md rule R40). -/
def loadInitial (s : State) : State :=
  { s with
    h := initialHash
    buf := Vector.replicate 64 0
    bufcnt := 0
    bitlen := 0
    errcode := .none
    phase := .ready }

/-- `raise UsageError(code)` (60_exceptions.md rule R161), the whole of "trap entry" (rule R164): the first cause is kept, PHASE
becomes FAULT, and nothing else is written. Leaving FAULT is `loadInitial` or `applyReset` (rule R165). -/
def raiseUsageError (code : ErrCode) (s : State) : State :=
  { s with
    errcode := if s.phase = .fault then s.errcode else code
    phase := .fault }

/-- The reset event (70_reset_and_hazards.md rule R190): the engine's own state becomes that of `State.reset`; what the host has
yet to issue and what the read port last answered are not the engine's state and stay (assumption log 11). -/
def applyReset (s : State) : State := { State.reset with pending := s.pending, rdata := s.rdata }

/-- The read port's answer, `RDATA <- v` (40_commands.md rule R113): the engine's own state is unchanged. -/
def answerRead (v : Word) (s : State) : State := { s with rdata := v }

end Sys2Proof.Machine
end

