-- ==== Sys2Proof/Machine/Commands.lean ====
section
/-! DEFINITION. The meanings of the three commands (40_commands.md rules R110 to R112). -/

namespace Sys2Proof.Machine

/-- INIT (40_commands.md rule R110): legal in every phase. -/
def execInit (s : State) : Host.Outcome State Fault Refusal := .next (loadInitial s)

/-- UPDATE (40_commands.md rule R111). The legality test comes before the phase (60_exceptions.md rule R163); the decoder has
made it already for every command word, and it stands here too for a term that no command word decodes to (assumption log 10). -/
def execUpdate (cnt : BitVec 3) (data : Word) (s : State) : Host.Outcome State Fault Refusal :=
  if 4 < cnt then .next (raiseUsageError .illegalCmd s)
  else match s.phase with
    | .uninit => .next (raiseUsageError .updateBeforeInit s)
    | .finalized => .next (raiseUsageError .updateAfterFinal s)
    | .fault => .next (raiseUsageError s.errcode s)
    | .ready | .absorbing => .next (setPhase .absorbing (absorbAll (updateBytes cnt data) s))

/-- FINAL (40_commands.md rule R112). -/
def execFinal (s : State) : Host.Outcome State Fault Refusal :=
  match s.phase with
  | .uninit => .next (raiseUsageError .finalBeforeInit s)
  | .finalized => .next (raiseUsageError .finalAfterFinal s)
  | .fault => .next (raiseUsageError s.errcode s)
  | .ready | .absorbing => .next (setPhase .finalized (flush s))

end Sys2Proof.Machine
end

