-- ==== Sys2Proof/Machine/Flags.lean ====
section
/-! DEFINITION. The engine has no condition codes (10_state.md rule R39). What stands in for them is STATUS: the codes of PHASE
and ERRCODE and the word that shows them (10_state.md rules R27, R28 and R32). -/

namespace Sys2Proof.Machine

/-- The 3-bit value of PHASE (10_state.md rule R27). -/
def phaseCode : Phase → BitVec 3
  | .uninit => 0
  | .ready => 1
  | .absorbing => 2
  | .finalized => 3
  | .fault => 4

/-- The 4-bit value of ERRCODE (60_exceptions.md rule R160). -/
def errCodeValue : ErrCode → BitVec 4
  | .none => 0
  | .illegalCmd => 1
  | .updateBeforeInit => 2
  | .finalBeforeInit => 3
  | .updateAfterFinal => 4
  | .finalAfterFinal => 5

/-- `STATUS = zext_32({BUFCNT, 0b0000, ERRCODE, 0b00000, PHASE})` (10_state.md rule R32). -/
def statusWord (s : State) : Word :=
  (s.bufcnt ++ (0 : BitVec 4) ++ errCodeValue s.errcode ++ (0 : BitVec 5) ++ phaseCode s.phase).setWidth 32

end Sys2Proof.Machine
end

