-- ==== Sys2Proof/Machine/ReadPort.lean ====
section
/-! DEFINITION. The read-only register map (10_state.md rules R31 to R35) and the meaning of RD (40_commands.md rule R113). -/

namespace Sys2Proof.Machine

/-- What an RADDR selects (10_state.md rule R31). -/
inductive Reg where
  | status
  | bitlenLo
  | bitlenHi
  | digest (i : Fin 8)
  /-- A reserved or misaligned address (rule R35). -/
  | readsZero
  deriving DecidableEq, Repr

/-- The register map (10_state.md rule R31). DIGEST i stands at `0x20 + 4*i`, so its addresses are those with RADDR[7:5] = 1
and RADDR[1:0] = 0, and `i` is RADDR[4:2]. -/
def regOf (raddr : BitVec 8) : Reg :=
  if raddr.extractLsb' 0 2 ≠ 0 then .readsZero
  else if raddr = 0x00 then .status
  else if raddr = 0x04 then .bitlenLo
  else if raddr = 0x08 then .bitlenHi
  else if raddr.extractLsb' 5 3 = 1 then .digest (raddr.extractLsb' 2 3).toFin
  else .readsZero

/-- The word a register shows (10_state.md rules R32 to R35). DIGEST i shows H[i] only in FINALIZED (rule R34). -/
def regRead (s : State) : Reg → Word
  | .status => statusWord s
  | .bitlenLo => s.bitlen.extractLsb' 0 32
  | .bitlenHi => s.bitlen.extractLsb' 32 32
  | .digest i => if s.phase = .finalized then s.h[i] else 0
  | .readsZero => 0

/-- `reg(RADDR)` of 40_commands.md rule R113. -/
def readAt (raddr : BitVec 8) (s : State) : Word := regRead s (regOf raddr)

/-- RD (40_commands.md rule R113): answers the register word, in every phase and at every address, and changes nothing else. -/
def execRd (raddr : BitVec 8) (s : State) : Host.Outcome State Fault Refusal := .next (answerRead (readAt raddr s) s)

end Sys2Proof.Machine
end

