-- ==== Sys2Proof/Machine/Dispatch.lean ====
section
/-! DEFINITION. One arm per instruction (40_commands.md rule R104). -/

namespace Sys2Proof.Machine

def exec (i : Instr) (s : State) : Host.Outcome State Fault Refusal :=
  match i with
  | .init => Sys2Proof.Machine.execInit s
  | .update cnt data => Sys2Proof.Machine.execUpdate cnt data s
  | .final => Sys2Proof.Machine.execFinal s
  | .rd raddr => Sys2Proof.Machine.execRd raddr s

end Sys2Proof.Machine
end

