-- ==== Sys2Proof/Machine/Serve.lean ====
section
/-! DEFINITION. Accepting what the host issues, one event at a time (20_memory.md rule R55, 40_commands.md rule R104). -/

namespace Sys2Proof.Machine

/-- Serve one transaction whole (40_commands.md rule R104): an illegal command is the usage error ILLEGAL_CMD whatever the
phase, a legal command or a read is executed. -/
def serveTransaction (tr : Transaction) (s : State) : Host.Outcome State Fault Refusal :=
  match decode tr with
  | .instr i => exec i s
  | .illegal _ => .next (raiseUsageError .illegalCmd s)

/-- Take one event of the host. A reset abandons the command in progress, if there is one (70_reset_and_hazards.md rule R190). -/
def serveEvent (ev : HostEvent) (s : State) : Host.Outcome State Fault Refusal :=
  match ev with
  | .serve tr => serveTransaction tr s
  | .reset _ => .next (applyReset s)

/-- Accept the next event the host has issued. With none the engine waits and holds its state (60_exceptions.md rule R174,
70_reset_and_hazards.md rule R191). -/
def acceptNext (s : State) : Host.Outcome State Fault Refusal :=
  match s.pending with
  | [] => .next s
  | ev :: rest => serveEvent ev (setPending rest s)

/-- Put a transaction in front of everything the host has issued. -/
def issueFirst (tr : Transaction) (s : State) : State := setPending (.serve tr :: s.pending) s

end Sys2Proof.Machine
end

