-- ==== Sys2Proof/Machine/Step.lean ====
section
/-! DEFINITION. One step: one transaction or reset of the host, whole (20_memory.md rules R55 and R56). -/

namespace Sys2Proof.Machine

/-- One step of the engine. -/
def step (s : State) : Host.Outcome State Fault Refusal := acceptNext s

/-- The state in which the very next step serves the transaction whose bits are `w` (assumption log 7). -/
def State.withFetchWord (s : State) (nbits w : Nat) : State := issueFirst (transactionOfBits nbits w) s

end Sys2Proof.Machine
end

