-- ==== Sys2Proof/Machine/Assembler.lean ====
section
/-! DEFINITION. The assembler's lines, their expansion into instructions, and the text syntax (30_encoding.md rules R82 and
R83). The engine never sees text: this is how the host writes command sequences down. -/

namespace Sys2Proof.Machine

/-- One line: the four instructions and the five pseudo-commands of 30_encoding.md rule R82. -/
inductive AsmLine where
  | init
  | update (k : BitVec 3) (d32 : Word)
  | final
  | rd (raddr : BitVec 8)
  | updateB (b8 : Byte)
  | updateW (w32 : Word)
  | absorb (bytes : List Byte)
  | rdDigest
  | hash (bytes : List Byte)
  deriving DecidableEq, Repr

/-- The RADDR of a register's name (10_state.md rule R31); 0x0C, the first reserved address, stands for read-as-zero. -/
def raddrOf : Reg → BitVec 8
  | .status => 0x00
  | .bitlenLo => 0x04
  | .bitlenHi => 0x08
  | .digest i => 0x20 + BitVec.ofNat 8 (4 * i.val)
  | .readsZero => 0x0C

/-- `ABSORB <s>` (30_encoding.md rule R82): UPDATEs of 4 bytes, and one of the 1 to 3 bytes left over, the lanes past the end 0. -/
def absorbInstrs : List Byte → List Instr
  | [] => []
  | [b0] => [.update 1 (be32 b0 0 0 0)]
  | [b0, b1] => [.update 2 (be32 b0 b1 0 0)]
  | [b0, b1, b2] => [.update 3 (be32 b0 b1 b2 0)]
  | b0 :: b1 :: b2 :: b3 :: rest => .update 4 (be32 b0 b1 b2 b3) :: absorbInstrs rest

/-- `RDDIGEST` (30_encoding.md rule R82): the eight digest words, in order. -/
def rdDigestInstrs : List Instr := (List.finRange 8).map fun i => .rd (raddrOf (.digest i))

/-- The instructions a line stands for (30_encoding.md rule R82). -/
def expandLine : AsmLine → List Instr
  | .init => [.init]
  | .update k d32 => [.update k d32]
  | .final => [.final]
  | .rd raddr => [.rd raddr]
  | .updateB b8 => [.update 1 (b8.setWidth 32 <<< 24)]
  | .updateW w32 => [.update 4 w32]
  | .absorb bytes => absorbInstrs bytes
  | .rdDigest => rdDigestInstrs
  | .hash bytes => .init :: absorbInstrs bytes ++ .final :: rdDigestInstrs

/-- The transactions of a line. -/
def assembleLine (line : AsmLine) : List Transaction := (expandLine line).map encode

/-- The pieces of a line's text. -/
inductive AsmToken where
  | word (cs : List Char)
  | text (bytes : List Byte)
  | comma
  deriving DecidableEq, Repr

/-- Where the scan of a line stands: between pieces, inside a word, or inside a quoted text (each with what it has read,
the last character first). -/
inductive ScanMode where
  | between
  | inWord (acc : List Char)
  | inText (acc : List Byte)
  deriving DecidableEq, Repr

/-- The double quote that opens and closes a text. -/
def quoteChar : Char := Char.ofNat 34

/-- The word being read, if there is one, before the pieces that follow. -/
def closeWord (m : ScanMode) (rest : List AsmToken) : List AsmToken :=
  match m with
  | .between => rest
  | .inWord acc => .word acc.reverse :: rest
  | .inText _ => rest

/-- Cut a line's text into pieces; `;` outside a quoted text starts a comment, a quoted text holds ASCII characters
(30_encoding.md rule R82; spaces, tabs and quoting: assumption log 9). `none` where the text is not of that form. -/
def scanLine : ScanMode → List Char → Option (List AsmToken)
  | .inText _, [] => none
  | m, [] => some (closeWord m [])
  | .inText acc, c :: cs =>
    if c = quoteChar then (scanLine .between cs).map (.text acc.reverse :: ·)
    else if c.toNat < 128 then scanLine (.inText (BitVec.ofNat 8 c.toNat :: acc)) cs
    else none
  | .between, c :: cs =>
    if c = ';' then some []
    else if c = ' ' ∨ c = '\t' then scanLine .between cs
    else if c = ',' then (scanLine .between cs).map (.comma :: ·)
    else if c = quoteChar then scanLine (.inText []) cs
    else scanLine (.inWord [c]) cs
  | .inWord acc, c :: cs =>
    if c = ';' then some [.word acc.reverse]
    else if c = ' ' ∨ c = '\t' then (scanLine .between cs).map (.word acc.reverse :: ·)
    else if c = ',' then (scanLine .between cs).map (fun r => .word acc.reverse :: .comma :: r)
    else if c = quoteChar then none
    else scanLine (.inWord (c :: acc)) cs

/-- The value of a hexadecimal digit. -/
def hexDigit (c : Char) : Option Nat :=
  let n := c.toNat
  if 48 ≤ n ∧ n ≤ 57 then some (n - 48)
  else if 97 ≤ n ∧ n ≤ 102 then some (n - 87)
  else if 65 ≤ n ∧ n ≤ 70 then some (n - 55)
  else none

/-- The value of a digit string in a base, `none` if a digit is not one of the base. -/
def digitsValue (base : Nat) : Nat → List Char → Option Nat
  | acc, [] => some acc
  | acc, c :: cs =>
    match hexDigit c with
    | some d => if d < base then digitsValue base (base * acc + d) cs else none
    | none => none

/-- A number: decimal, or `0x` and hexadecimal digits (30_encoding.md rule R82). -/
def parseNumber : List Char → Option Nat
  | [] => none
  | '0' :: 'x' :: [] => none
  | '0' :: 'x' :: ds => digitsValue 16 0 ds
  | ds => digitsValue 10 0 ds

/-- A number that fits in `w` bits. -/
def parseBits (w : Nat) (cs : List Char) : Option (BitVec w) :=
  match parseNumber cs with
  | some n => if n < 2 ^ w then some (BitVec.ofNat w n) else none
  | none => none

/-- Hexadecimal digit pairs as bytes. -/
def hexPairs : List Char → Option (List Byte)
  | [] => some []
  | [_] => none
  | c :: d :: cs =>
    match hexDigit c, hexDigit d, hexPairs cs with
    | some x, some y, some bs => some (BitVec.ofNat 8 (16 * x + y) :: bs)
    | _, _, _ => none

/-- A byte string: a quoted text, or `0x` followed by hex digit pairs (30_encoding.md rule R82). -/
def parseBytes : AsmToken → Option (List Byte)
  | .text bytes => some bytes
  | .word ('0' :: 'x' :: ds) => hexPairs ds
  | .word _ => none
  | .comma => none

/-- The index in `DIGEST0` to `DIGEST7`. -/
def digestIndex (c : Char) : Option (Fin 8) :=
  if h : 48 ≤ c.toNat ∧ c.toNat < 56 then some ⟨c.toNat - 48, by omega⟩ else none

/-- `<reg>` (30_encoding.md rule R82): a register's name, or an 8-bit address. -/
def parseReg : List Char → Option (BitVec 8)
  | ['S', 'T', 'A', 'T', 'U', 'S'] => some (raddrOf .status)
  | ['B', 'I', 'T', 'L', 'E', 'N', '_', 'L', 'O'] => some (raddrOf .bitlenLo)
  | ['B', 'I', 'T', 'L', 'E', 'N', '_', 'H', 'I'] => some (raddrOf .bitlenHi)
  | ['D', 'I', 'G', 'E', 'S', 'T', c] => (digestIndex c).map fun i => raddrOf (.digest i)
  | cs => parseBits 8 cs

/-- `UPDATE <k>, <d32>` with `k` in 0..4. -/
def parseUpdate (k d : List Char) : Option AsmLine :=
  match parseBits 3 k, parseBits 32 d with
  | some k, some d => if k ≤ 4 then some (.update k d) else none
  | _, _ => none

/-- The line that a list of pieces spells (30_encoding.md rule R82). -/
def parseTokens : List AsmToken → Option AsmLine
  | [.word ['I', 'N', 'I', 'T']] => some .init
  | [.word ['U', 'P', 'D', 'A', 'T', 'E'], .word k, .comma, .word d] => parseUpdate k d
  | [.word ['F', 'I', 'N', 'A', 'L']] => some .final
  | [.word ['R', 'D'], .word r] => (parseReg r).map .rd
  | [.word ['U', 'P', 'D', 'A', 'T', 'E', '.', 'B'], .word b] => (parseBits 8 b).map .updateB
  | [.word ['U', 'P', 'D', 'A', 'T', 'E', '.', 'W'], .word w] => (parseBits 32 w).map .updateW
  | [.word ['A', 'B', 'S', 'O', 'R', 'B'], s] => (parseBytes s).map .absorb
  | [.word ['R', 'D', 'D', 'I', 'G', 'E', 'S', 'T']] => some .rdDigest
  | [.word ['H', 'A', 'S', 'H'], s] => (parseBytes s).map .hash
  | _ => none

/-- The transactions a line of text stands for; an empty line or a comment stands for none, and `none` is a line the
syntax does not have. -/
def assembleText (cs : List Char) : Option (List Transaction) :=
  match scanLine .between cs with
  | none => none
  | some [] => some []
  | some tokens => (parseTokens tokens).map assembleLine

end Sys2Proof.Machine
end

