-- ==== Sys2Proof/Machine/System.lean ====
section
/-! DEFINITION. Several engine instances (10_state.md rule R42, 60_exceptions.md rule R172): each has its own state and its own
ports, and they share the constant K alone. -/

namespace Sys2Proof.Machine

/-- `N_INSTANCES` engines; the parameter is the argument `n`, a positive number, since there is at least one (00_scope.md rule
R11, assumption log 8). -/
abbrev System (n : ℕ+) := Vector State n

/-- A step of instance `i`. Which instance a host addresses is the platform's business, so `i` is an argument and a claim about
several instances holds for every order of such steps. -/
def systemStep {n : ℕ+} (i : Fin n) (sys : System n) : Host.Outcome (System n) Fault Refusal :=
  match step sys[i] with
  | .next s => .next (sys.set i s)
  | .fault r => .fault r
  | .refused r => .refused r

/-- Every instance after its reset (60_exceptions.md rule R172). -/
def systemReset (n : ℕ+) : System n := Vector.replicate n State.reset

end Sys2Proof.Machine
end

