-- ==== Sys2Proof/Config.lean ====
section
/-! DEFINITION. The parameters the spec leaves OPEN (00_scope.md rule R11, 20_memory.md rule R51): constants without a body.
No rule of the spec reads one, and no definition of the model does. The third of them, N_INSTANCES, is the argument of
`Sys2Proof.Machine.System`, a positive number like the first. -/

namespace Sys2Proof

/-- `CMD_LATENCY(op, cnt, bufcnt)` of 00_scope.md rule R11: positive and finite, in any unit, and by 70_reset_and_hazards.md
rule R197 a function of OP, CNT and BUFCNT alone. Left open (assumption log 8). -/
opaque Config.cmdLatency : BitVec 4 → BitVec 3 → BitVec 6 → ℕ+

/-- `ENGINE_BASE` of 20_memory.md rule R51: where a platform places the read port. Left open (assumption log 8). -/
opaque Config.engineBase : Nat

end Sys2Proof
end

