-- ==== Sys2Proof/Machine/Reference.lean ====
section
/-! DEFINITION. Sequences of instructions, the bytes they carry, the compressions they perform, and SHA-256 of a whole message,
to state the laws of 40_commands.md rules R114 to R116 against. The machine uses none of these. -/

namespace Sys2Proof.Machine

/-- Execute a list of instructions in order, stopping at the first fault or refusal. -/
def execSeq : List Instr → State → Host.Outcome State Fault Refusal
  | [], s => .next s
  | i :: rest, s =>
    match exec i s with
    | .next s' => execSeq rest s'
    | .fault r => .fault r
    | .refused r => .refused r

/-- The message bytes an instruction carries (40_commands.md rule R111). -/
def carriedBytes : Instr → List Byte
  | .init => []
  | .update cnt data => updateBytes cnt data
  | .final => []
  | .rd _ => []

/-- Whether an instruction is a legal UPDATE. -/
def isUpdate : Instr → Bool
  | .init => false
  | .update cnt _ => decide (cnt ≤ 4)
  | .final => false
  | .rd _ => false

/-- A whole message with its padding (00_scope.md rule R16, "Padding"): one 0x80 byte, the fewest zero bytes that bring the
length to 56 modulo 64, and the bit length as 8 big-endian bytes. -/
def paddedMessage (m : List Byte) : List Byte :=
  m ++ (0x80 : Byte) :: (List.replicate ((119 - m.length % 64) % 64) (0 : Byte) ++ be64bytes (BitVec.ofNat 64 (8 * m.length)))

/-- Block `i` of a byte list: its bytes `64*i, …, 64*i + 63`. -/
def blockAt (l : List Byte) (i : Nat) : Vector Byte 64 := Vector.ofFn fun j : Fin 64 => l.getD (64 * i + j.val) 0

/-- The hash state after the first `n` blocks of a byte list, compressed in order from the hash state `H`. -/
def hashBlocks (l : List Byte) (H : Vector Word 8) : Nat → Vector Word 8
  | 0 => H
  | n + 1 => compressHash (blockAt l n) (hashBlocks l H n)

/-- SHA-256 of a whole message as eight words: every block of the padded message, compressed in order from the IV
(40_commands.md rule R115; a message of 2^64 bits or more gets the wrapped length of 93_implementation_defined.md I3). -/
def sha256 (m : List Byte) : Vector Word 8 :=
  hashBlocks (paddedMessage m) initialHash ((paddedMessage m).length / 64)

/-- The pending bytes, `BUF[0 .. BUFCNT-1]`, in arrival order (10_state.md rule R23). -/
def pendingBytes (s : State) : List Byte := s.buf.toList.take s.bufcnt.toNat

/-- READY or ABSORBING: the phases in which UPDATE and FINAL are in sequence (60_exceptions.md rule R162). -/
def Phase.inMessage : Phase → Bool
  | .uninit => false
  | .ready => true
  | .absorbing => true
  | .finalized => false
  | .fault => false

/-- How many compressions an instruction performs (70_reset_and_hazards.md rule R196): those of UPDATE and FINAL where they are
in sequence, none for a rejected command, INIT or a read. -/
def compressionCount (i : Instr) (s : State) : Nat :=
  match i with
  | .init => 0
  | .update cnt _ => if s.phase.inMessage = true ∧ 64 ≤ s.bufcnt.toNat + cnt.toNat then 1 else 0
  | .final => if s.phase.inMessage = true then (if s.bufcnt.toNat ≤ 55 then 1 else 2) else 0
  | .rd _ => 0

/-- The digest as 32 bytes: the words in order, each as 4 big-endian bytes (10_state.md rule R34, 30_encoding.md rule R83). -/
def digestBytes (d : Vector Word 8) : List Byte := d.toList.flatMap wordBytes

/-- The primes below `n`, in increasing order, from which the IV and K are derived (10_state.md rules R21 and R26). -/
def primesBelow (n : Nat) : List Nat :=
  (List.range n).filter fun k => decide (2 ≤ k) && (List.range k).all fun d => decide (d < 2) || decide (k % d ≠ 0)

/-- The time a command takes (00_scope.md rule R11, 70_reset_and_hazards.md rule R197): the open parameter at the command's OP
and CNT and the buffer count, so no message byte, hash word or bit length can matter. No step waits for it. -/
def commandLatency (cmd : Word) (s : State) : ℕ+ := Config.cmdLatency (cmdOp cmd) (cmdCnt cmd) s.bufcnt

end Sys2Proof.Machine
end

