-- ==== Sys2Proof/Safety.lean ====
section
/-! DEFINITION. What counts as a safe run, in the terms the claims use: the invariants of 10_state.md rule R41, the digest a
host may trust (60_exceptions.md rule R175), and what the host can tell apart (10_state.md rule R36). -/

namespace Sys2Proof.Machine

/-- What holds between commands in every state reachable from reset, in the words of 10_state.md rule R41, items 2 to 6. Items
1 and 7 hold of every State by the types of BUFCNT and PHASE. Of item 4 it says what one state shows: BUFCNT is 0 and BITLEN is
a whole number of bytes. -/
structure State.Inv (s : State) : Prop where
  /-- Item 2. -/
  ready_empty : s.phase = .ready → s.bufcnt = 0 ∧ s.bitlen = 0
  /-- Item 3. -/
  bitlen_tracks : s.phase.inMessage = true → s.bitlen.toNat % 512 = 8 * s.bufcnt.toNat
  /-- Item 4, as far as one state shows it. -/
  finalized_flushed : s.phase = .finalized → s.bufcnt = 0 ∧ s.bitlen.toNat % 8 = 0
  /-- Item 5. -/
  uninit_clear : s.phase = .uninit → s.errcode = .none ∧ s.bufcnt = 0 ∧ s.bitlen = 0
  /-- Item 6. -/
  error_iff_fault : s.errcode ≠ .none ↔ s.phase = .fault

/-- A digest the host may trust: PHASE is FINALIZED and no usage error is recorded (60_exceptions.md rule R175). -/
def State.digestReady (s : State) : Bool := decide (s.phase = .finalized) && decide (s.errcode = .none)

/-- Two states a host cannot tell apart, now or later: they agree on all but what 10_state.md rule R36 hides and no later
command reads. H counts in the three phases from which the digest can still be read without an INIT, the pending bytes of BUF
in the two phases that still read them; W, the working variables and t never count. -/
structure State.SameToHost (s s' : State) : Prop where
  phase : s.phase = s'.phase
  errcode : s.errcode = s'.errcode
  bufcnt : s.bufcnt = s'.bufcnt
  bitlen : s.bitlen = s'.bitlen
  pending : s.pending = s'.pending
  rdata : s.rdata = s'.rdata
  hash : s.phase.inMessage = true ∨ s.phase = .finalized → s.h = s'.h
  pendingBytes : s.phase.inMessage = true → ∀ j (hj : j < 64), j < s.bufcnt.toNat → s.buf[j] = s'.buf[j]

end Sys2Proof.Machine
end

