-- ==== Sys2Proof/Certificates/Slice0/Obligations.lean ====
section
/-! DEFINITION. The statements for the provers, from the numbered rules of spec/. -/

open Sys2Proof Sys2Proof.Machine

/-! ## Reset, waiting, serving -/

/-- 70_reset_and_hazards.md rule R190: reset, at power-on or at any other time, is one step that leaves PHASE UNINIT and ERRCODE,
BUFCNT and BITLEN 0, whatever command was in progress. -/
def Obligations.ResetLeavesUninitAndZeroCounts : Prop :=
  (State.reset.phase = .uninit ∧ State.reset.errcode = .none ∧ State.reset.bufcnt = 0 ∧ State.reset.bitlen = 0) ∧
  ∀ (s : State) (inProgress : Option Transaction) (rest : List HostEvent), s.pending = .reset inProgress :: rest →
    ∃ u, step s = .next u ∧ u.phase = .uninit ∧ u.errcode = .none ∧ u.bufcnt = 0 ∧ u.bitlen = 0

/-- 60_exceptions.md rule R174 and 70_reset_and_hazards.md rule R191: with nothing issued the engine waits and holds its state.
That the engine waits by a step that changes nothing is the model's form of it (assumption log 1). -/
def Obligations.WaitingHoldsState : Prop :=
  ∀ s : State, s.pending = [] → step s = .next s

/-- 20_memory.md rule R55 and 40_commands.md rule R104: a step serves the first transaction issued; when it decodes to a
well-formed instruction the step is `exec` of it on the state in which that transaction has left the list (assumption log 1). -/
def Obligations.StepRunsDecodedInstruction : Prop :=
  ∀ (s : State) (tr : Transaction) (i : Instr) (rest : List HostEvent),
    s.pending = .serve tr :: rest → decode tr = .instr i → i.WellFormed → step s = exec i (setPending rest s)

/-- 60_exceptions.md rules R166 and R175, of commands: no command and no read stops the engine, in any phase. Two clauses say more
than these rules and are the model's: that a state with nothing issued has a step (assumption log 1), and that an `update` term
that is not well-formed, one with a count of 5 to 7, which no command word decodes to, has a next state, the usage error
ILLEGAL_CMD (assumption log 10, DEDUCED). -/
def Obligations.EveryStepAnswers : Prop :=
  (∀ s : State, ∃ u, step s = .next u) ∧ ∀ (i : Instr) (s : State), ∃ u, exec i s = .next u

/-- 20_memory.md rule R55: serving the transactions of well-formed instructions one step each, through the port, is executing
the instructions in that order (the list of what the host issues is the model's: assumption log 1). -/
def Obligations.PortServesInOrder : Prop :=
  ∀ (is : List Instr) (rest : List HostEvent) (s : State), (∀ i ∈ is, i.WellFormed) →
    s.pending = is.map (fun i => HostEvent.serve (encode i)) ++ rest →
    Host.Core.run Sys2Proof.core is.length s = execSeq is (setPending rest s)

/-! ## Encoding -/

/-- 30_encoding.md rules R71, R79 and R80: decoding what the encoder writes gives the instruction back, for every instruction
and every value of its operands. -/
def Obligations.DecodeOfEncodeIsIdentity : Prop :=
  ∀ i : Instr, i.WellFormed → decode (encode i) = .instr i

/-- The other direction: what the decoder reads is well-formed, and encoding it gives back the read, or the command word with
the data word where the command is an UPDATE (INIT and FINAL ignore theirs, rule R77). -/
def Obligations.EncodeOfDecodeGivesBackTheCommand : Prop :=
  ∀ (tr : Transaction) (i : Instr), decode tr = .instr i → i.WellFormed ∧
    (∀ raddr, tr = .read raddr → encode i = tr) ∧
    (∀ cmd data, tr = .command cmd data → ∃ data', encode i = .command cmd data' ∧
      (∀ cnt d, i = .update cnt d → d = data ∧ data' = data))

/-- 30_encoding.md rule R75: the legality predicate in the rule's own words, on CMD's bits; a legal command decodes to INIT,
UPDATE(CNT, bytes) or FINAL as its OP says, whatever DATA is, and a command that is not legal decodes to ILLEGAL. -/
def Obligations.LegalityPredicate : Prop :=
  ∀ cmd data : Word,
    let op := cmd.extractLsb' 0 4
    let cnt := cmd.extractLsb' 4 3
    let rsv := cmd.extractLsb' 7 25
    if rsv = 0 ∧ ((op = 1 ∧ cnt = 0) ∨ (op = 2 ∧ cnt ≤ 4) ∨ (op = 3 ∧ cnt = 0)) then
      legalCmd cmd = true ∧
      decode (.command cmd data) =
        .instr (if op = 1 then .init else if op = 2 then .update cnt data else .final)
    else legalCmd cmd = false ∧ ∃ why, decode (.command cmd data) = .illegal why

/-- 30_encoding.md rule R79: the complete set of legal command words, DATA being any word; every other CMD value is illegal. -/
def Obligations.LegalCommandWords : Prop :=
  ∀ cmd data : Word,
    if cmd = 0x00000001 then decode (.command cmd data) = .instr .init
    else if cmd = 0x00000002 then decode (.command cmd data) = .instr (.update 0 data)
    else if cmd = 0x00000012 then decode (.command cmd data) = .instr (.update 1 data)
    else if cmd = 0x00000022 then decode (.command cmd data) = .instr (.update 2 data)
    else if cmd = 0x00000032 then decode (.command cmd data) = .instr (.update 3 data)
    else if cmd = 0x00000042 then decode (.command cmd data) = .instr (.update 4 data)
    else if cmd = 0x00000003 then decode (.command cmd data) = .instr .final
    else ∃ why, decode (.command cmd data) = .illegal why

/-- 30_encoding.md rule R76 with 60_exceptions.md rule R163: the illegal commands are those the rule lists, and each is the
usage error ILLEGAL_CMD in every phase: PHASE becomes FAULT, ERRCODE keeps a first cause, and nothing else changes. -/
def Obligations.IllegalCommandIsUsageError : Prop :=
  ∀ (s : State) (cmd data : Word) (rest : List HostEvent), s.pending = .serve (.command cmd data) :: rest →
    (cmd.extractLsb' 0 4 = 0 ∨ 4 ≤ cmd.extractLsb' 0 4 ∨ cmd.extractLsb' 7 25 ≠ 0 ∨
      (cmd.extractLsb' 0 4 = 2 ∧ 5 ≤ cmd.extractLsb' 4 3) ∨
      ((cmd.extractLsb' 0 4 = 1 ∨ cmd.extractLsb' 0 4 = 3) ∧ cmd.extractLsb' 4 3 ≠ 0) ↔ legalCmd cmd = false) ∧
    (legalCmd cmd = false →
      step s = .next { s with
        pending := rest
        phase := .fault
        errcode := if s.phase = .fault then s.errcode else .illegalCmd })

/-- 95_test_vectors.md section 2.5: a few words written out from the encoding tables. -/
def Obligations.SampleWordsDecode : Prop :=
  decode (.command 0b00000000000000000000000000000001 0) = .instr .init ∧
  decode (.command 0b00000000000000000000000000110010 0x61626300) = .instr (.update 3 0x61626300) ∧
  decode (.command 0b00000000000000000000000000000011 0) = .instr .final ∧
  decode (.read 0b00100100) = .instr (.rd 0x24) ∧
  decode (.command 0b00000000000000000000000001010010 0) = .illegal .illegalCount ∧
  decode (.command 0b00000000000000000000000000000100 0) = .illegal .reservedOpcode ∧
  decode (.command 0b10000000000000000000000000000001 0) = .illegal .reservedBitSet

/-- 30_encoding.md rule R73: the bytes an UPDATE carries, for each legal CNT, and the lanes at or past CNT ignored: they affect
neither legality nor the result. -/
def Obligations.UpdateCarriesLeadingLanes : Prop :=
  (∀ d : Word,
    updateBytes 0 d = [] ∧
    updateBytes 1 d = [d.extractLsb' 24 8] ∧
    updateBytes 2 d = [d.extractLsb' 24 8, d.extractLsb' 16 8] ∧
    updateBytes 3 d = [d.extractLsb' 24 8, d.extractLsb' 16 8, d.extractLsb' 8 8] ∧
    updateBytes 4 d = [d.extractLsb' 24 8, d.extractLsb' 16 8, d.extractLsb' 8 8, d.extractLsb' 0 8]) ∧
  (∀ cmd d d' : Word, (∃ why, decode (.command cmd d) = .illegal why) ↔ ∃ why, decode (.command cmd d') = .illegal why) ∧
  ∀ (cnt : BitVec 3) (d d' : Word) (s : State), cnt ≤ 4 →
    (∀ j < cnt.toNat, d.extractLsb' (24 - 8 * j) 8 = d'.extractLsb' (24 - 8 * j) 8) →
    exec (.update cnt d) s = exec (.update cnt d') s

/-- 20_memory.md rule R53 items 1 and 4: the four bytes of a 4-byte UPDATE, packed as a schedule word is, are DATA. -/
def Obligations.FourByteUpdateIsAScheduleWord : Prop :=
  ∀ d : Word, be32 (lane d 0) (lane d 1) (lane d 2) (lane d 3) = d ∧
    updateBytes 4 d = [lane d 0, lane d 1, lane d 2, lane d 3]

/-- 20_memory.md rule R53 item 2: the length suffix is the value in 8 bytes, the most significant first. -/
def Obligations.LengthSuffixIsBigEndian : Prop :=
  ∀ L : BitVec 64, (be64bytes L).length = 8 ∧
    (be64bytes L).foldl (fun acc b => 256 * acc + b.toNat) 0 = L.toNat

/-! ## The commands -/

/-- 40_commands.md rule R110: INIT in every phase loads the IV, zeroes BUF, BUFCNT, BITLEN and ERRCODE and moves to READY, leaving
all else; afterwards STATUS reads 1, BITLEN and every DIGEST word read 0, and a second INIT changes nothing. -/
def Obligations.InitResult : Prop :=
  ∀ s : State, ∃ u, exec .init s = .next u ∧
    u = { s with
      h := #v[0x6a09e667, 0xbb67ae85, 0x3c6ef372, 0xa54ff53a, 0x510e527f, 0x9b05688c, 0x1f83d9ab, 0x5be0cd19]
      buf := Vector.replicate 64 0
      bufcnt := 0
      bitlen := 0
      errcode := .none
      phase := .ready } ∧
    readAt 0x00 u = 0x00000001 ∧ readAt 0x04 u = 0 ∧ readAt 0x08 u = 0 ∧
    (∀ i : Fin 8, readAt (0x20 + BitVec.ofNat 8 (4 * i.val)) u = 0) ∧
    exec .init u = .next u

/-- 40_commands.md rule R111: an UPDATE in sequence absorbs its bytes. PHASE becomes ABSORBING, BUFCNT `(old BUFCNT + k) mod 64`,
BITLEN grows by `8k` modulo 2^64, and H is written by one compression exactly when `old BUFCNT + k >= 64`, of the block that
the pending bytes and the first new ones make; the rest stays pending. -/
def Obligations.UpdateResult : Prop :=
  ∀ (cnt : BitVec 3) (data : Word) (s : State), cnt ≤ 4 → s.phase = .ready ∨ s.phase = .absorbing →
    ∃ u, exec (.update cnt data) s = .next u ∧
      u.phase = .absorbing ∧
      u.bufcnt.toNat = (s.bufcnt.toNat + cnt.toNat) % 64 ∧
      u.bitlen = s.bitlen + 8 * cnt.setWidth 64 ∧
      (if s.bufcnt.toNat + cnt.toNat < 64 then
        u.h = s.h ∧ pendingBytes u = pendingBytes s ++ updateBytes cnt data
      else
        u.h = compressHash (blockAt (pendingBytes s ++ updateBytes cnt data) 0) s.h ∧
        pendingBytes u = (pendingBytes s ++ updateBytes cnt data).drop 64)

/-- 40_commands.md rules R100 and R111 with 30_encoding.md rule R73: what an UPDATE in sequence writes in BUF, and its frame: byte
`j` goes to cell `(BUFCNT + j) mod 64` and every other cell is unchanged; ERRCODE is unchanged; and unless a block is completed
so is H. Three clauses are the model's and rest on no rule: that W, the working variables and t are unchanged then, which
10_state.md rules R29 and R30 and 41_compression.md rule R148 call meaningless between commands (assumption log 4, DEDUCED,
unsafe for just such a clause); that RDATA is unchanged (assumption log 2); and that what is pending is (assumption log 1). -/
def Obligations.UpdateBufferAndFrame : Prop :=
  ∀ (cnt : BitVec 3) (data : Word) (s : State), cnt ≤ 4 → s.phase = .ready ∨ s.phase = .absorbing →
    ∃ u, exec (.update cnt data) s = .next u ∧
      (∀ j < cnt.toNat, u.buf[(s.bufcnt.toNat + j) % 64]? = some (data.extractLsb' (24 - 8 * j) 8)) ∧
      (∀ c < 64, (∀ j < cnt.toNat, c ≠ (s.bufcnt.toNat + j) % 64) → u.buf[c]? = s.buf[c]?) ∧
      u.errcode = s.errcode ∧ u.rdata = s.rdata ∧ u.pending = s.pending ∧
      (s.bufcnt.toNat + cnt.toNat < 64 → u.h = s.h ∧ u.w = s.w ∧ u.vars = s.vars ∧ u.t = s.t)

/-- 40_commands.md rules R103 and R112: a FINAL in sequence pads, compresses one block when `BUFCNT <= 55` and two when
`BUFCNT >= 56`, ends with BUFCNT 0 and BITLEN unchanged in FINALIZED, and every DIGEST word reads H. ERRCODE is
unchanged; so are RDATA and what is pending, which are the model's fields (assumption logs 2 and 1). -/
def Obligations.FinalResult : Prop :=
  ∀ s : State, s.phase = .ready ∨ s.phase = .absorbing →
    ∃ u, exec .final s = .next u ∧
      u.phase = .finalized ∧ u.bufcnt = 0 ∧ u.bitlen = s.bitlen ∧
      u.errcode = s.errcode ∧ u.rdata = s.rdata ∧ u.pending = s.pending ∧
      (if s.bufcnt.toNat ≤ 55 then
        (pendingBytes s ++ pad s.bitlen s.bufcnt).length = 64 ∧
        u.h = compressHash (blockAt (pendingBytes s ++ pad s.bitlen s.bufcnt) 0) s.h
      else
        (pendingBytes s ++ pad s.bitlen s.bufcnt).length = 128 ∧
        u.h = compressHash (blockAt (pendingBytes s ++ pad s.bitlen s.bufcnt) 1)
          (compressHash (blockAt (pendingBytes s ++ pad s.bitlen s.bufcnt) 0) s.h)) ∧
      ∀ i : Fin 8, readAt (0x20 + BitVec.ofNat 8 (4 * i.val)) u = u.h[i]

/-- 40_commands.md rule R102: the padding list is 0x80, `z` zero bytes with `z` the non-negative remainder of `55 - n` modulo 64,
and the length's 8 bytes; its length is `9 + z`, which is `64 - n` when `n <= 55` and `128 - n` when `n >= 56`, so that it fills
the block. -/
def Obligations.PaddingFillsTheBlock : Prop :=
  ∀ (L : BitVec 64) (n : BitVec 6), ∃ z : Nat, (z : Int) = (55 - (n.toNat : Int)) % 64 ∧
    pad L n = [0x80] ++ List.replicate z 0 ++ be64bytes L ∧
    (n.toNat + 1 + z) % 64 = 56 ∧
    (pad L n).length = 9 + z ∧
    (pad L n).length = if n.toNat ≤ 55 then 64 - n.toNat else 128 - n.toNat

/-- 40_commands.md rules R100 and R101: placing a byte writes one cell and the count, and compresses when it is the 64th byte;
absorbing it also adds 8 to BITLEN modulo 2^64; PHASE and ERRCODE are unchanged, and so are RDATA and what is pending, which are
the model's fields (assumption logs 2 and 1). -/
def Obligations.PlaceAndAbsorbOneByte : Prop :=
  ∀ (b : Byte) (s : State),
    (place b s).buf = s.buf.set s.bufcnt.toNat b s.bufcnt.isLt ∧
    (if s.bufcnt = 63 then (place b s).bufcnt = 0 ∧ (place b s).h = compressHash (place b s).buf s.h
     else (place b s).bufcnt.toNat = s.bufcnt.toNat + 1 ∧ (place b s).h = s.h) ∧
    (place b s).bitlen = s.bitlen ∧ (place b s).phase = s.phase ∧ (place b s).errcode = s.errcode ∧
    (place b s).rdata = s.rdata ∧ (place b s).pending = s.pending ∧
    absorb b s = { place b s with bitlen := s.bitlen + 8 }

/-- 60_exceptions.md rules R161 and R162: the complete command result table, every phase against INIT, UPDATE k, FINAL and an
illegal command. A rejected command writes PHASE and ERRCODE and nothing else; in FAULT it leaves the state as it is. -/
def Obligations.CommandResultTable : Prop :=
  ∀ s : State,
    (∃ u, exec .init s = .next u ∧ u.phase = .ready ∧ u.errcode = .none) ∧
    (∀ (cnt : BitVec 3) (data : Word), cnt ≤ 4 →
      exec (.update cnt data) s =
        match s.phase with
        | .uninit => .next { s with phase := .fault, errcode := .updateBeforeInit }
        | .ready => .next { absorbAll (updateBytes cnt data) s with phase := .absorbing }
        | .absorbing => .next { absorbAll (updateBytes cnt data) s with phase := .absorbing }
        | .finalized => .next { s with phase := .fault, errcode := .updateAfterFinal }
        | .fault => .next s) ∧
    (exec .final s =
      match s.phase with
      | .uninit => .next { s with phase := .fault, errcode := .finalBeforeInit }
      | .ready => .next { flush s with phase := .finalized }
      | .absorbing => .next { flush s with phase := .finalized }
      | .finalized => .next { s with phase := .fault, errcode := .finalAfterFinal }
      | .fault => .next s) ∧
    (∀ cmd data : Word, legalCmd cmd = false →
      serveTransaction (.command cmd data) s =
        if s.phase = .fault then .next s else .next { s with phase := .fault, errcode := .illegalCmd })

/-- 70_reset_and_hazards.md rule R196: the number of compressions each instruction performs, INIT aside: H afterwards is H before
with that many blocks compressed into it. -/
def Obligations.CompressionsPerInstruction : Prop :=
  ∀ (i : Instr) (s : State), i.WellFormed → i ≠ .init →
    ∃ u, exec i s = .next u ∧ ∃ blocks : List (Vector Byte 64),
      blocks.length = compressionCount i s ∧ u.h = blocks.foldl (fun H B => compressHash B H) s.h

/-- 20_memory.md rule R59: INIT, an UPDATE with CNT 0 and a read of any address leave, done twice in a row, the state they leave
done once (for the read, RDATA's holding its answer is the model's: assumption log 2). -/
def Obligations.IdempotentTransactions : Prop :=
  ∀ (s : State) (i : Instr), (i = .init ∨ (∃ d, i = .update 0 d) ∨ ∃ a, i = .rd a) →
    ∃ u, exec i s = .next u ∧ exec i u = .next u

/-! ## The read port -/

/-- 10_state.md rules R31, R34 and R35: the register map, address by address, and a read changes nothing but the port's answer. -/
def Obligations.ReadAnswersRegisterMap : Prop :=
  ∀ (a : BitVec 8) (s : State),
    exec (.rd a) s = .next { s with rdata :=
      if a.toNat % 4 ≠ 0 then 0
      else if a.toNat = 0x00 then statusWord s
      else if a.toNat = 0x04 then s.bitlen.extractLsb' 0 32
      else if a.toNat = 0x08 then s.bitlen.extractLsb' 32 32
      else if 0x20 ≤ a.toNat ∧ a.toNat ≤ 0x3C then
        if s.phase = .finalized then (s.h[(a.toNat - 0x20) / 4]?).getD 0 else 0
      else 0 }

/-- 10_state.md rules R27, R28 and R32: the fields of STATUS, the reserved bits 0. -/
def Obligations.StatusFields : Prop :=
  ∀ s : State,
    (readAt 0x00 s).extractLsb' 0 3 =
      (match s.phase with | .uninit => 0 | .ready => 1 | .absorbing => 2 | .finalized => 3 | .fault => 4) ∧
    (readAt 0x00 s).extractLsb' 3 5 = 0 ∧
    (readAt 0x00 s).extractLsb' 8 4 =
      (match s.errcode with
       | .none => 0 | .illegalCmd => 1 | .updateBeforeInit => 2 | .finalBeforeInit => 3
       | .updateAfterFinal => 4 | .finalAfterFinal => 5) ∧
    (readAt 0x00 s).extractLsb' 12 4 = 0 ∧
    (readAt 0x00 s).extractLsb' 16 6 = s.bufcnt ∧
    (readAt 0x00 s).extractLsb' 22 10 = 0

/-- 10_state.md rule R33: in every phase, reading BITLEN_HI and then BITLEN_LO with nothing between gives the two halves of the
same BITLEN. -/
def Obligations.BitlenReadInTwoHalves : Prop :=
  ∀ s : State, ∃ u v, exec (.rd 0x08) s = .next u ∧ exec (.rd 0x04) u = .next v ∧ u.rdata ++ v.rdata = s.bitlen

/-- 10_state.md rule R34 and 40_commands.md rule R116: the digest is 32 bytes, byte `4*i + j` being bits `31-8j : 24-8j` of
DIGEST i. -/
def Obligations.DigestIsThirtyTwoBigEndianBytes : Prop :=
  ∀ d : Vector Word 8, (digestBytes d).length = 32 ∧
    ∀ (i j : Nat) (hi : i < 8), j < 4 → (digestBytes d)[4 * i + j]? = some (d[i].extractLsb' (24 - 8 * j) 8)

/-- 10_state.md rule R31: each register that is not read-as-zero stands at exactly one address. -/
def Obligations.RegistersAndAddressesCorrespond : Prop :=
  (∀ r : Reg, regOf (raddrOf r) = r) ∧ ∀ a : BitVec 8, regOf a ≠ .readsZero → raddrOf (regOf a) = a

/-- 10_state.md rules R22 and R34: outside FINALIZED no address shows H: two states that differ in H alone answer every read
alike; and 0 is what every DIGEST word reads there. -/
def Obligations.HashHiddenOutsideFinalized : Prop :=
  ∀ (s : State) (H : Vector Word 8), s.phase ≠ .finalized →
    (∀ a, readAt a { s with h := H } = readAt a s) ∧
    ∀ i : Fin 8, readAt (0x20 + BitVec.ofNat 8 (4 * i.val)) s = 0

/-! ## The compression core -/

/-- 00_scope.md rule R13, 41_compression.md rules R141 and R143: ROTR is rotation to the right; Ch takes `y`'s bit where `x`'s is 1
and `z`'s where it is 0; Maj takes the majority of the three bits; the four sigma functions have the amounts the rules give. -/
def Obligations.MixingFunctionsBitByBit : Prop :=
  (∀ (x : Word) (n : Nat), 1 ≤ n → n ≤ 31 → rotr x n = x.rotateRight n) ∧
  (∀ (x y z : Word) (i : Nat), i < 32 →
    (choice x y z).getLsbD i = (if x.getLsbD i then y.getLsbD i else z.getLsbD i) ∧
    (majority x y z).getLsbD i =
      decide (2 ≤ (x.getLsbD i).toNat + (y.getLsbD i).toNat + (z.getLsbD i).toNat)) ∧
  ∀ x : Word,
    smallSigma0 x = x.rotateRight 7 ^^^ x.rotateRight 18 ^^^ (x >>> 3) ∧
    smallSigma1 x = x.rotateRight 17 ^^^ x.rotateRight 19 ^^^ (x >>> 10) ∧
    bigSigma0 x = x.rotateRight 2 ^^^ x.rotateRight 13 ^^^ x.rotateRight 22 ∧
    bigSigma1 x = x.rotateRight 6 ^^^ x.rotateRight 11 ^^^ x.rotateRight 25

/-- 41_compression.md rules R140 and R142: the 64 words of the schedule. -/
def Obligations.ScheduleWords : Prop :=
  ∀ B : Vector Byte 64,
    (∀ (t : Nat) (ht : t < 16),
      (schedule B)[t] = B[4 * t] ++ B[4 * t + 1] ++ B[4 * t + 2] ++ B[4 * t + 3]) ∧
    ∀ (t : Nat) (ht : t < 64), 16 ≤ t →
      (schedule B)[t] = smallSigma1 (schedule B)[t - 2] + (schedule B)[t - 7] +
        smallSigma0 (schedule B)[t - 15] + (schedule B)[t - 16]

/-- 41_compression.md rules R144 to R146: the working variables start as H; round `t` is the rule's equations with K[t] and W[t],
computed from the values before the round; and after the 64 rounds each is added to the word of H it started as. -/
def Obligations.RoundEquations : Prop :=
  ∀ (B : Vector Byte 64) (H : Vector Word 8),
    varsAfter (schedule B) H 0 (Nat.zero_le 64) =
      { a := H[0], b := H[1], c := H[2], d := H[3], e := H[4], f := H[5], g := H[6], h := H[7] } ∧
    (∀ (t : Nat) (ht : t < 64) (v : WorkVars), varsAfter (schedule B) H t (Nat.le_of_lt ht) = v →
      ∀ T1 T2 : Word,
        T1 = v.h + bigSigma1 v.e + choice v.e v.f v.g + roundConstants[t] + (schedule B)[t] →
        T2 = bigSigma0 v.a + majority v.a v.b v.c →
        varsAfter (schedule B) H (t + 1) ht =
          { a := T1 + T2, b := v.a, c := v.b, d := v.c, e := v.d + T1, f := v.e, g := v.f, h := v.g }) ∧
    ∀ v : WorkVars, varsAfter (schedule B) H 64 (Nat.le_refl 64) = v → finalVars B H = v ∧
      compressHash B H =
        #v[H[0] + v.a, H[1] + v.b, H[2] + v.c, H[3] + v.d, H[4] + v.e, H[5] + v.f, H[6] + v.g, H[7] + v.h]

/-- 41_compression.md rule R147: compress reads the block, H and K and nothing else, and writes H and the scratch state only.
That it leaves RDATA and what is pending is of the model's fields (assumption logs 2 and 1). -/
def Obligations.CompressReadsAndWritesOnlyItsOwn : Prop :=
  ∀ (B : Vector Byte 64) (s s' : State),
    (compress B s).h = compressHash B s.h ∧
    (s.h = s'.h → (compress B s).h = (compress B s').h ∧ (compress B s).w = (compress B s').w ∧
      (compress B s).vars = (compress B s').vars ∧ (compress B s).t = (compress B s').t) ∧
    (compress B s).buf = s.buf ∧ (compress B s).bufcnt = s.bufcnt ∧ (compress B s).bitlen = s.bitlen ∧
    (compress B s).phase = s.phase ∧ (compress B s).errcode = s.errcode ∧
    (compress B s).pending = s.pending ∧ (compress B s).rdata = s.rdata

/-- 10_state.md rule R21: IV[i] is the first 32 bits of the fractional part of the square root of the i-th prime. -/
def Obligations.InitialHashFromSquareRoots : Prop :=
  primesBelow 20 = [2, 3, 5, 7, 11, 13, 17, 19] ∧
  ∀ i : Fin 8, ∃ q : Nat,
    (2 ^ 32 * q + initialHash[i].toNat) ^ 2 ≤ 2 ^ 64 * (primesBelow 20).getD i.val 0 ∧
    2 ^ 64 * (primesBelow 20).getD i.val 0 < (2 ^ 32 * q + initialHash[i].toNat + 1) ^ 2

/-- 10_state.md rule R26: K[t] is the first 32 bits of the fractional part of the cube root of the t-th prime, 2 to 311. -/
def Obligations.RoundConstantsFromCubeRoots : Prop :=
  (primesBelow 312).length = 64 ∧
  ∀ t : Fin 64, ∃ q : Nat,
    (2 ^ 32 * q + roundConstants[t].toNat) ^ 3 ≤ 2 ^ 96 * (primesBelow 312).getD t.val 0 ∧
    2 ^ 96 * (primesBelow 312).getD t.val 0 < (2 ^ 32 * q + roundConstants[t].toNat + 1) ^ 3

/-! ## The whole machine -/

/-- 10_state.md rule R41: what holds between commands holds after reset. -/
def Obligations.ResetMeetsInvariant : Prop := State.reset.Inv

/-- 10_state.md rule R41: every step keeps it, from every state that meets it, whatever the host issues. -/
def Obligations.EveryStepKeepsInvariant : Prop :=
  ∀ s u : State, s.Inv → step s = .next u → u.Inv

/-- 60_exceptions.md rules R164 and R165: only INIT and reset leave FAULT; every other step there keeps the first cause and changes
no hashing state. -/
def Obligations.OnlyInitOrResetLeavesFault : Prop :=
  ∀ s u : State, s.phase = .fault → step s = .next u →
    (u.phase = .fault ∧ u.errcode = s.errcode ∧ u.h = s.h ∧ u.buf = s.buf ∧ u.bufcnt = s.bufcnt ∧ u.bitlen = s.bitlen) ∨
    (∃ data rest, s.pending = .serve (.command 0x00000001 data) :: rest ∧
      u.phase = .ready ∧ u.errcode = .none ∧ u.h = initialHash ∧ u.bufcnt = 0 ∧ u.bitlen = 0) ∨
    (∃ inProgress rest, s.pending = .reset inProgress :: rest ∧ u.phase = .uninit ∧ u.errcode = .none)

/-- 10_state.md rules R21, R25 and R28: no step writes ERRCODE but a rejection (outside FAULT), INIT and reset; none writes BITLEN
but the bytes of an UPDATE, INIT and reset; and none writes H but INIT, reset (whose H is unspecified) and the compressions of
an UPDATE or FINAL in sequence. -/
def Obligations.WhoWritesWhat : Prop :=
  ∀ s u : State, step s = .next u →
    (u.errcode = s.errcode ∧ u.bitlen = s.bitlen ∧ u.h = s.h) ∨
    (s.phase ≠ .fault ∧ u.phase = .fault ∧ u.bitlen = s.bitlen ∧ u.h = s.h) ∨
    (∃ inProgress rest, s.pending = .reset inProgress :: rest) ∨
    (∃ data rest, s.pending = .serve (.command 0x00000001 data) :: rest ∧
      u.errcode = .none ∧ u.bitlen = 0 ∧ u.h = initialHash) ∨
    (∃ cnt data rest, s.pending = .serve (encode (.update cnt data)) :: rest ∧ cnt ≤ 4 ∧
      (s.phase = .ready ∨ s.phase = .absorbing) ∧ u.errcode = s.errcode ∧
      u.bitlen = s.bitlen + 8 * cnt.setWidth 64 ∧ (u.h = s.h ∨ ∃ B, u.h = compressHash B s.h)) ∨
    (∃ data rest, s.pending = .serve (.command 0x00000003 data) :: rest ∧
      (s.phase = .ready ∨ s.phase = .absorbing) ∧ u.errcode = s.errcode ∧ u.bitlen = s.bitlen ∧
      ((∃ B, u.h = compressHash B s.h) ∨ ∃ B B', u.h = compressHash B' (compressHash B s.h)))

/-- 10_state.md rule R27 and 60_exceptions.md rule R162: FINALIZED is entered by a FINAL in READY or ABSORBING and in no other way. -/
def Obligations.FinalizedOnlyThroughFinal : Prop :=
  ∀ s u : State, step s = .next u → u.phase = .finalized →
    s.phase = .finalized ∨
    ((s.phase = .ready ∨ s.phase = .absorbing) ∧ ∃ data rest, s.pending = .serve (.command 0x00000003 data) :: rest)

/-- 10_state.md rule R34: the digest stays fixed while it is readable: a step that starts and ends in FINALIZED changes what no
DIGEST address reads. -/
def Obligations.DigestFixedWhileReadable : Prop :=
  ∀ s u : State, s.phase = .finalized → step s = .next u → u.phase = .finalized →
    u.h = s.h ∧ ∀ i : Fin 8, readAt (0x20 + BitVec.ofNat 8 (4 * i.val)) u = readAt (0x20 + BitVec.ofNat 8 (4 * i.val)) s

/-- 10_state.md rule R36: two states that agree on all but the hidden state answer every read alike. -/
def Obligations.SameToHostReadsAlike : Prop :=
  ∀ (s s' : State) (a : BitVec 8), s.SameToHost s' → readAt a s = readAt a s'

/-- 10_state.md rules R36 and R40: and they stay so whatever the host issues, so that no value the spec leaves unspecified is ever
observed: not H or BUF before INIT, not the cells past BUFCNT, not the scratch state. -/
def Obligations.HiddenStateNeverShows : Prop :=
  ∀ s s' u : State, s.SameToHost s' → step s = .next u → ∃ u', step s' = .next u' ∧ u.SameToHost u'

/-- 10_state.md rule R40: the values the model holds after reset where the spec gives none (assumption log 3) make no difference
to the host: any others are the same to it. -/
def Obligations.UnspecifiedResetValuesAreHidden : Prop :=
  ∀ (H : Vector Word 8) (B : Vector Byte 64) (W : Vector Word 64) (v : WorkVars) (n : Fin 64),
    State.reset.SameToHost { State.reset with h := H, buf := B, w := W, vars := v, t := n }

/-- 40_commands.md rule R114: two sequences of UPDATEs that carry the same bytes, from a state in READY or ABSORBING, leave the
same H, BUFCNT, pending bytes and BITLEN, and the same PHASE but in READY when exactly one of them is empty; FINAL after either
gives the same digest. -/
def Obligations.StreamingEquivalence : Prop :=
  ∀ (s : State) (is is' : List Instr), s.phase = .ready ∨ s.phase = .absorbing →
    is.all isUpdate = true → is'.all isUpdate = true → is.flatMap carriedBytes = is'.flatMap carriedBytes →
    ∃ u u' v v', execSeq is s = .next u ∧ execSeq is' s = .next u' ∧
      u.h = u'.h ∧ u.bufcnt = u'.bufcnt ∧ pendingBytes u = pendingBytes u' ∧ u.bitlen = u'.bitlen ∧
      (¬ (s.phase = .ready ∧ (is = [] ↔ is' ≠ [])) → u.phase = u'.phase) ∧
      exec .final u = .next v ∧ exec .final u' = .next v' ∧
      ∀ i : Fin 8, readAt (0x20 + BitVec.ofNat 8 (4 * i.val)) v = readAt (0x20 + BitVec.ofNat 8 (4 * i.val)) v'

/-- 40_commands.md rule R115: from any state, INIT, UPDATEs carrying the bytes `m` however they are cut, and FINAL leave a digest
the host may trust, every DIGEST word that of SHA-256 of the whole message, padded and cut into blocks at once; and BITLEN is 8
times the message length modulo 2^64 (10_state.md rule R41 item 4). That SHA-256 of a whole message is this function is the
model's own statement of it. -/
def Obligations.DigestIsSha256OfTheMessage : Prop :=
  ∀ (s : State) (is : List Instr) (m : List Byte), is.all isUpdate = true → is.flatMap carriedBytes = m →
    ∃ u, execSeq (.init :: is ++ [.final]) s = .next u ∧ u.digestReady = true ∧
      (∀ i : Fin 8, readAt (0x20 + BitVec.ofNat 8 (4 * i.val)) u = (sha256 m)[i]) ∧
      u.bitlen = BitVec.ofNat 64 (8 * m.length)

/-- 30_encoding.md rule R82: ABSORB expands to legal UPDATEs that carry the string's bytes in order, one for each 4 bytes or part
of 4, and to nothing for the empty string. -/
def Obligations.AbsorbExpansionCarriesTheString : Prop :=
  ∀ bytes : List Byte,
    (expandLine (.absorb bytes)).all isUpdate = true ∧
    (expandLine (.absorb bytes)).flatMap carriedBytes = bytes ∧
    (expandLine (.absorb bytes)).length = (bytes.length + 3) / 4

/-- 10_state.md rule R42 and 60_exceptions.md rule R172: a step of one instance is its own step and leaves every other as it was,
and steps of different instances can be taken in either order. -/
def Obligations.InstancesAreIndependent : Prop :=
  ∀ (n : ℕ+) (sys : System n) (i j : Fin n), i ≠ j →
    ∃ a b both, systemStep i sys = .next a ∧ systemStep j sys = .next b ∧
      step sys[i] = .next a[i] ∧ (∀ k : Fin n, k ≠ i → a[k] = sys[k]) ∧
      systemStep j a = .next both ∧ systemStep i b = .next both
end

