-- ==== Sys2Proof/Laws/State.lean ====
section
/-! SUPPORT. One lemma per field per named update of State, so that no later proof unfolds a record update. -/

namespace Sys2Proof.Machine

@[simp] theorem setBuf_h (B : Vector Byte 64) (s : State) : (setBuf B s).h = s.h := rfl
@[simp] theorem setBuf_buf (B : Vector Byte 64) (s : State) : (setBuf B s).buf = B := rfl
@[simp] theorem setBuf_bufcnt (B : Vector Byte 64) (s : State) : (setBuf B s).bufcnt = s.bufcnt := rfl
@[simp] theorem setBuf_bitlen (B : Vector Byte 64) (s : State) : (setBuf B s).bitlen = s.bitlen := rfl
@[simp] theorem setBuf_phase (B : Vector Byte 64) (s : State) : (setBuf B s).phase = s.phase := rfl
@[simp] theorem setBuf_errcode (B : Vector Byte 64) (s : State) : (setBuf B s).errcode = s.errcode := rfl
@[simp] theorem setBuf_w (B : Vector Byte 64) (s : State) : (setBuf B s).w = s.w := rfl
@[simp] theorem setBuf_vars (B : Vector Byte 64) (s : State) : (setBuf B s).vars = s.vars := rfl
@[simp] theorem setBuf_t (B : Vector Byte 64) (s : State) : (setBuf B s).t = s.t := rfl
@[simp] theorem setBuf_pending (B : Vector Byte 64) (s : State) : (setBuf B s).pending = s.pending := rfl
@[simp] theorem setBuf_rdata (B : Vector Byte 64) (s : State) : (setBuf B s).rdata = s.rdata := rfl

@[simp] theorem setBufcnt_h (n : BitVec 6) (s : State) : (setBufcnt n s).h = s.h := rfl
@[simp] theorem setBufcnt_buf (n : BitVec 6) (s : State) : (setBufcnt n s).buf = s.buf := rfl
@[simp] theorem setBufcnt_bufcnt (n : BitVec 6) (s : State) : (setBufcnt n s).bufcnt = n := rfl
@[simp] theorem setBufcnt_bitlen (n : BitVec 6) (s : State) : (setBufcnt n s).bitlen = s.bitlen := rfl
@[simp] theorem setBufcnt_phase (n : BitVec 6) (s : State) : (setBufcnt n s).phase = s.phase := rfl
@[simp] theorem setBufcnt_errcode (n : BitVec 6) (s : State) : (setBufcnt n s).errcode = s.errcode := rfl
@[simp] theorem setBufcnt_w (n : BitVec 6) (s : State) : (setBufcnt n s).w = s.w := rfl
@[simp] theorem setBufcnt_vars (n : BitVec 6) (s : State) : (setBufcnt n s).vars = s.vars := rfl
@[simp] theorem setBufcnt_t (n : BitVec 6) (s : State) : (setBufcnt n s).t = s.t := rfl
@[simp] theorem setBufcnt_pending (n : BitVec 6) (s : State) : (setBufcnt n s).pending = s.pending := rfl
@[simp] theorem setBufcnt_rdata (n : BitVec 6) (s : State) : (setBufcnt n s).rdata = s.rdata := rfl

@[simp] theorem setBitlen_h (L : BitVec 64) (s : State) : (setBitlen L s).h = s.h := rfl
@[simp] theorem setBitlen_buf (L : BitVec 64) (s : State) : (setBitlen L s).buf = s.buf := rfl
@[simp] theorem setBitlen_bufcnt (L : BitVec 64) (s : State) : (setBitlen L s).bufcnt = s.bufcnt := rfl
@[simp] theorem setBitlen_bitlen (L : BitVec 64) (s : State) : (setBitlen L s).bitlen = L := rfl
@[simp] theorem setBitlen_phase (L : BitVec 64) (s : State) : (setBitlen L s).phase = s.phase := rfl
@[simp] theorem setBitlen_errcode (L : BitVec 64) (s : State) : (setBitlen L s).errcode = s.errcode := rfl
@[simp] theorem setBitlen_w (L : BitVec 64) (s : State) : (setBitlen L s).w = s.w := rfl
@[simp] theorem setBitlen_vars (L : BitVec 64) (s : State) : (setBitlen L s).vars = s.vars := rfl
@[simp] theorem setBitlen_t (L : BitVec 64) (s : State) : (setBitlen L s).t = s.t := rfl
@[simp] theorem setBitlen_pending (L : BitVec 64) (s : State) : (setBitlen L s).pending = s.pending := rfl
@[simp] theorem setBitlen_rdata (L : BitVec 64) (s : State) : (setBitlen L s).rdata = s.rdata := rfl

@[simp] theorem setPhase_h (p : Phase) (s : State) : (setPhase p s).h = s.h := rfl
@[simp] theorem setPhase_buf (p : Phase) (s : State) : (setPhase p s).buf = s.buf := rfl
@[simp] theorem setPhase_bufcnt (p : Phase) (s : State) : (setPhase p s).bufcnt = s.bufcnt := rfl
@[simp] theorem setPhase_bitlen (p : Phase) (s : State) : (setPhase p s).bitlen = s.bitlen := rfl
@[simp] theorem setPhase_phase (p : Phase) (s : State) : (setPhase p s).phase = p := rfl
@[simp] theorem setPhase_errcode (p : Phase) (s : State) : (setPhase p s).errcode = s.errcode := rfl
@[simp] theorem setPhase_w (p : Phase) (s : State) : (setPhase p s).w = s.w := rfl
@[simp] theorem setPhase_vars (p : Phase) (s : State) : (setPhase p s).vars = s.vars := rfl
@[simp] theorem setPhase_t (p : Phase) (s : State) : (setPhase p s).t = s.t := rfl
@[simp] theorem setPhase_pending (p : Phase) (s : State) : (setPhase p s).pending = s.pending := rfl
@[simp] theorem setPhase_rdata (p : Phase) (s : State) : (setPhase p s).rdata = s.rdata := rfl

@[simp] theorem setPending_h (evs : List HostEvent) (s : State) : (setPending evs s).h = s.h := rfl
@[simp] theorem setPending_buf (evs : List HostEvent) (s : State) : (setPending evs s).buf = s.buf := rfl
@[simp] theorem setPending_bufcnt (evs : List HostEvent) (s : State) : (setPending evs s).bufcnt = s.bufcnt := rfl
@[simp] theorem setPending_bitlen (evs : List HostEvent) (s : State) : (setPending evs s).bitlen = s.bitlen := rfl
@[simp] theorem setPending_phase (evs : List HostEvent) (s : State) : (setPending evs s).phase = s.phase := rfl
@[simp] theorem setPending_errcode (evs : List HostEvent) (s : State) : (setPending evs s).errcode = s.errcode := rfl
@[simp] theorem setPending_w (evs : List HostEvent) (s : State) : (setPending evs s).w = s.w := rfl
@[simp] theorem setPending_vars (evs : List HostEvent) (s : State) : (setPending evs s).vars = s.vars := rfl
@[simp] theorem setPending_t (evs : List HostEvent) (s : State) : (setPending evs s).t = s.t := rfl
@[simp] theorem setPending_pending (evs : List HostEvent) (s : State) : (setPending evs s).pending = evs := rfl
@[simp] theorem setPending_rdata (evs : List HostEvent) (s : State) : (setPending evs s).rdata = s.rdata := rfl

@[simp] theorem compress_h (B : Vector Byte 64) (s : State) : (compress B s).h = compressHash B s.h := rfl
@[simp] theorem compress_buf (B : Vector Byte 64) (s : State) : (compress B s).buf = s.buf := rfl
@[simp] theorem compress_bufcnt (B : Vector Byte 64) (s : State) : (compress B s).bufcnt = s.bufcnt := rfl
@[simp] theorem compress_bitlen (B : Vector Byte 64) (s : State) : (compress B s).bitlen = s.bitlen := rfl
@[simp] theorem compress_phase (B : Vector Byte 64) (s : State) : (compress B s).phase = s.phase := rfl
@[simp] theorem compress_errcode (B : Vector Byte 64) (s : State) : (compress B s).errcode = s.errcode := rfl
@[simp] theorem compress_w (B : Vector Byte 64) (s : State) : (compress B s).w = schedule B := rfl
@[simp] theorem compress_vars (B : Vector Byte 64) (s : State) : (compress B s).vars = finalVars B s.h := rfl
@[simp] theorem compress_t (B : Vector Byte 64) (s : State) : (compress B s).t = 63 := rfl
@[simp] theorem compress_pending (B : Vector Byte 64) (s : State) : (compress B s).pending = s.pending := rfl
@[simp] theorem compress_rdata (B : Vector Byte 64) (s : State) : (compress B s).rdata = s.rdata := rfl

@[simp] theorem loadInitial_h (s : State) : (loadInitial s).h = initialHash := rfl
@[simp] theorem loadInitial_buf (s : State) : (loadInitial s).buf = Vector.replicate 64 0 := rfl
@[simp] theorem loadInitial_bufcnt (s : State) : (loadInitial s).bufcnt = 0 := rfl
@[simp] theorem loadInitial_bitlen (s : State) : (loadInitial s).bitlen = 0 := rfl
@[simp] theorem loadInitial_phase (s : State) : (loadInitial s).phase = .ready := rfl
@[simp] theorem loadInitial_errcode (s : State) : (loadInitial s).errcode = .none := rfl
@[simp] theorem loadInitial_w (s : State) : (loadInitial s).w = s.w := rfl
@[simp] theorem loadInitial_vars (s : State) : (loadInitial s).vars = s.vars := rfl
@[simp] theorem loadInitial_t (s : State) : (loadInitial s).t = s.t := rfl
@[simp] theorem loadInitial_pending (s : State) : (loadInitial s).pending = s.pending := rfl
@[simp] theorem loadInitial_rdata (s : State) : (loadInitial s).rdata = s.rdata := rfl

@[simp] theorem raiseUsageError_h (code : ErrCode) (s : State) : (raiseUsageError code s).h = s.h := rfl
@[simp] theorem raiseUsageError_buf (code : ErrCode) (s : State) : (raiseUsageError code s).buf = s.buf := rfl
@[simp] theorem raiseUsageError_bufcnt (code : ErrCode) (s : State) : (raiseUsageError code s).bufcnt = s.bufcnt := rfl
@[simp] theorem raiseUsageError_bitlen (code : ErrCode) (s : State) : (raiseUsageError code s).bitlen = s.bitlen := rfl
@[simp] theorem raiseUsageError_phase (code : ErrCode) (s : State) : (raiseUsageError code s).phase = .fault := rfl
@[simp] theorem raiseUsageError_errcode (code : ErrCode) (s : State) : (raiseUsageError code s).errcode = if s.phase = .fault then s.errcode else code := rfl
@[simp] theorem raiseUsageError_w (code : ErrCode) (s : State) : (raiseUsageError code s).w = s.w := rfl
@[simp] theorem raiseUsageError_vars (code : ErrCode) (s : State) : (raiseUsageError code s).vars = s.vars := rfl
@[simp] theorem raiseUsageError_t (code : ErrCode) (s : State) : (raiseUsageError code s).t = s.t := rfl
@[simp] theorem raiseUsageError_pending (code : ErrCode) (s : State) : (raiseUsageError code s).pending = s.pending := rfl
@[simp] theorem raiseUsageError_rdata (code : ErrCode) (s : State) : (raiseUsageError code s).rdata = s.rdata := rfl

@[simp] theorem applyReset_h (s : State) : (applyReset s).h = State.reset.h := rfl
@[simp] theorem applyReset_buf (s : State) : (applyReset s).buf = State.reset.buf := rfl
@[simp] theorem applyReset_bufcnt (s : State) : (applyReset s).bufcnt = State.reset.bufcnt := rfl
@[simp] theorem applyReset_bitlen (s : State) : (applyReset s).bitlen = State.reset.bitlen := rfl
@[simp] theorem applyReset_phase (s : State) : (applyReset s).phase = State.reset.phase := rfl
@[simp] theorem applyReset_errcode (s : State) : (applyReset s).errcode = State.reset.errcode := rfl
@[simp] theorem applyReset_w (s : State) : (applyReset s).w = State.reset.w := rfl
@[simp] theorem applyReset_vars (s : State) : (applyReset s).vars = State.reset.vars := rfl
@[simp] theorem applyReset_t (s : State) : (applyReset s).t = State.reset.t := rfl
@[simp] theorem applyReset_pending (s : State) : (applyReset s).pending = s.pending := rfl
@[simp] theorem applyReset_rdata (s : State) : (applyReset s).rdata = s.rdata := rfl

@[simp] theorem answerRead_h (v : Word) (s : State) : (answerRead v s).h = s.h := rfl
@[simp] theorem answerRead_buf (v : Word) (s : State) : (answerRead v s).buf = s.buf := rfl
@[simp] theorem answerRead_bufcnt (v : Word) (s : State) : (answerRead v s).bufcnt = s.bufcnt := rfl
@[simp] theorem answerRead_bitlen (v : Word) (s : State) : (answerRead v s).bitlen = s.bitlen := rfl
@[simp] theorem answerRead_phase (v : Word) (s : State) : (answerRead v s).phase = s.phase := rfl
@[simp] theorem answerRead_errcode (v : Word) (s : State) : (answerRead v s).errcode = s.errcode := rfl
@[simp] theorem answerRead_w (v : Word) (s : State) : (answerRead v s).w = s.w := rfl
@[simp] theorem answerRead_vars (v : Word) (s : State) : (answerRead v s).vars = s.vars := rfl
@[simp] theorem answerRead_t (v : Word) (s : State) : (answerRead v s).t = s.t := rfl
@[simp] theorem answerRead_pending (v : Word) (s : State) : (answerRead v s).pending = s.pending := rfl
@[simp] theorem answerRead_rdata (v : Word) (s : State) : (answerRead v s).rdata = v := rfl

@[simp] theorem issueFirst_h (tr : Transaction) (s : State) : (issueFirst tr s).h = s.h := rfl
@[simp] theorem issueFirst_buf (tr : Transaction) (s : State) : (issueFirst tr s).buf = s.buf := rfl
@[simp] theorem issueFirst_bufcnt (tr : Transaction) (s : State) : (issueFirst tr s).bufcnt = s.bufcnt := rfl
@[simp] theorem issueFirst_bitlen (tr : Transaction) (s : State) : (issueFirst tr s).bitlen = s.bitlen := rfl
@[simp] theorem issueFirst_phase (tr : Transaction) (s : State) : (issueFirst tr s).phase = s.phase := rfl
@[simp] theorem issueFirst_errcode (tr : Transaction) (s : State) : (issueFirst tr s).errcode = s.errcode := rfl
@[simp] theorem issueFirst_w (tr : Transaction) (s : State) : (issueFirst tr s).w = s.w := rfl
@[simp] theorem issueFirst_vars (tr : Transaction) (s : State) : (issueFirst tr s).vars = s.vars := rfl
@[simp] theorem issueFirst_t (tr : Transaction) (s : State) : (issueFirst tr s).t = s.t := rfl
@[simp] theorem issueFirst_pending (tr : Transaction) (s : State) : (issueFirst tr s).pending = .serve tr :: s.pending := rfl
@[simp] theorem issueFirst_rdata (tr : Transaction) (s : State) : (issueFirst tr s).rdata = s.rdata := rfl

@[simp] theorem reset_phase : State.reset.phase = .uninit := rfl
@[simp] theorem reset_errcode : State.reset.errcode = .none := rfl
@[simp] theorem reset_bufcnt : State.reset.bufcnt = 0 := rfl
@[simp] theorem reset_bitlen : State.reset.bitlen = 0 := rfl

end Sys2Proof.Machine
end

