-- ==== Sys2Proof/Laws/Ops.lean ====
section
/-! SUPPORT. What the buffer operations can do, each said once: `place` has two cases, and placing or absorbing a list of bytes
cuts the byte stream at every 64th byte (40_commands.md rules R100 to R103). -/

namespace Sys2Proof.Machine

/-- The equations of the three definitions that are irreducible. -/
theorem schedule_eq (B : Vector Byte 64) : schedule B = scheduleUpTo B 48 (Nat.le_refl 48) := by unfold schedule; rfl

theorem finalVars_eq (B : Vector Byte 64) (H : Vector Word 8) :
    finalVars B H = varsAfter (schedule B) H 64 (Nat.le_refl 64) := by unfold finalVars; rfl

theorem compressHash_eq (B : Vector Byte 64) (H : Vector Word 8) :
    compressHash B H = accumulate H (finalVars B H) := by unfold compressHash; rfl

/-- `K[t]` stands in row `t / 8`, column `t % 8`, of the table (10_state.md rule R26). -/
theorem roundConstants_getElem (t : Nat) (ht : t < 64) :
    roundConstants[t] =
      (roundConstantRow ⟨t / 8, Nat.div_lt_of_lt_mul ht⟩)[t % 8]'(Nat.mod_lt _ (by decide)) := by
  simp [roundConstants]

/-- `place` while the block is not full: one cell of BUF and the count, nothing else (40_commands.md rule R100). -/
theorem place_of_lt (b : Byte) (s : State) (h : s.bufcnt.toNat < 63) :
    place b s = setBufcnt (s.bufcnt + 1) (setBuf (bufWith b s) s) := by
  have hn : s.bufcnt.toNat + 1 ≠ 64 := by omega
  have hc : BitVec.ofNat 6 (s.bufcnt.toNat + 1) = s.bufcnt + 1 := by
    apply BitVec.eq_of_toNat_eq; simp [BitVec.toNat_add]
  simp [place, hn, hc]

/-- `place` of the 64th byte: the block is compressed and the count returns to 0 (40_commands.md rule R100). -/
theorem place_of_full (b : Byte) (s : State) (h : s.bufcnt.toNat = 63) :
    place b s = setBufcnt 0 (compress (bufWith b s) (setBuf (bufWith b s) s)) := by
  simp [place, h]

/-- The two cases of `place`: everything it can do. -/
theorem place_cases (b : Byte) (s : State) :
    (s.bufcnt.toNat < 63 ∧ place b s = setBufcnt (s.bufcnt + 1) (setBuf (bufWith b s) s)) ∨
    (s.bufcnt.toNat = 63 ∧ place b s = setBufcnt 0 (compress (bufWith b s) (setBuf (bufWith b s) s))) := by
  have := s.bufcnt.isLt
  rcases Nat.lt_or_ge s.bufcnt.toNat 63 with h | h
  · exact .inl ⟨h, place_of_lt b s h⟩
  · have h63 : s.bufcnt.toNat = 63 := by omega
    exact .inr ⟨h63, place_of_full b s h63⟩

@[simp] theorem place_buf (b : Byte) (s : State) : (place b s).buf = bufWith b s := by
  rcases place_cases b s with ⟨_, h⟩ | ⟨_, h⟩ <;> simp [h]

@[simp] theorem place_bufcnt (b : Byte) (s : State) : (place b s).bufcnt = s.bufcnt + 1 := by
  rcases place_cases b s with ⟨_, h⟩ | ⟨h63, h⟩
  · simp [h]
  · have h0 : s.bufcnt + 1#6 = 0#6 := by apply BitVec.eq_of_toNat_eq; simp [BitVec.toNat_add, h63]
    simp [h, h0]

@[simp] theorem place_bitlen (b : Byte) (s : State) : (place b s).bitlen = s.bitlen := by
  rcases place_cases b s with ⟨_, h⟩ | ⟨_, h⟩ <;> simp [h]

@[simp] theorem place_phase (b : Byte) (s : State) : (place b s).phase = s.phase := by
  rcases place_cases b s with ⟨_, h⟩ | ⟨_, h⟩ <;> simp [h]

@[simp] theorem place_errcode (b : Byte) (s : State) : (place b s).errcode = s.errcode := by
  rcases place_cases b s with ⟨_, h⟩ | ⟨_, h⟩ <;> simp [h]

@[simp] theorem place_pending (b : Byte) (s : State) : (place b s).pending = s.pending := by
  rcases place_cases b s with ⟨_, h⟩ | ⟨_, h⟩ <;> simp [h]

@[simp] theorem place_rdata (b : Byte) (s : State) : (place b s).rdata = s.rdata := by
  rcases place_cases b s with ⟨_, h⟩ | ⟨_, h⟩ <;> simp [h]

/-- `place` writes H only where it fills the block. -/
theorem place_h (b : Byte) (s : State) :
    (place b s).h = if s.bufcnt.toNat = 63 then compressHash (bufWith b s) s.h else s.h := by
  rcases place_cases b s with ⟨hlt, h⟩ | ⟨h63, h⟩
  · have : s.bufcnt.toNat ≠ 63 := by omega
    simp [h, this]
  · simp [h, h63]

@[simp] theorem placeAll_nil (s : State) : placeAll [] s = s := rfl

@[simp] theorem placeAll_cons (b : Byte) (bs : List Byte) (s : State) :
    placeAll (b :: bs) s = placeAll bs (place b s) := rfl

@[simp] theorem absorbAll_nil (s : State) : absorbAll [] s = s := rfl

@[simp] theorem absorbAll_cons (b : Byte) (bs : List Byte) (s : State) :
    absorbAll (b :: bs) s = absorbAll bs (absorb b s) := rfl

theorem placeAll_append (xs ys : List Byte) (s : State) :
    placeAll (xs ++ ys) s = placeAll ys (placeAll xs s) := by
  simp [placeAll]

theorem absorbAll_append (xs ys : List Byte) (s : State) :
    absorbAll (xs ++ ys) s = absorbAll ys (absorbAll xs s) := by
  simp [absorbAll]

/-- `place` neither reads nor writes BITLEN. -/
theorem place_with_bitlen (b : Byte) (s : State) (L : BitVec 64) :
    place b (setBitlen L s) = setBitlen L (place b s) := by
  rcases place_cases b s with ⟨h, e⟩ | ⟨h, e⟩
  · rw [e, place_of_lt b (setBitlen L s) h]; rfl
  · rw [e, place_of_full b (setBitlen L s) h]; rfl

theorem placeAll_with_bitlen (bs : List Byte) (s : State) (L : BitVec 64) :
    placeAll bs (setBitlen L s) = setBitlen L (placeAll bs s) := by
  induction bs generalizing s with
  | nil => rfl
  | cons b bs ih => simp only [placeAll_cons, place_with_bitlen, ih]

/-- `place` neither reads nor writes PHASE. -/
theorem place_with_phase (b : Byte) (s : State) (p : Phase) : place b (setPhase p s) = setPhase p (place b s) := by
  rcases place_cases b s with ⟨h, e⟩ | ⟨h, e⟩
  · rw [e, place_of_lt b (setPhase p s) h]; rfl
  · rw [e, place_of_full b (setPhase p s) h]; rfl

theorem placeAll_with_phase (bs : List Byte) (s : State) (p : Phase) :
    placeAll bs (setPhase p s) = setPhase p (placeAll bs s) := by
  induction bs generalizing s with
  | nil => rfl
  | cons b bs ih => simp only [placeAll_cons, place_with_phase, ih]

/-- `place` neither reads nor writes what is pending. -/
theorem place_with_pending (b : Byte) (s : State) (evs : List HostEvent) :
    place b (setPending evs s) = setPending evs (place b s) := by
  rcases place_cases b s with ⟨h, e⟩ | ⟨h, e⟩
  · rw [e, place_of_lt b (setPending evs s) h]; rfl
  · rw [e, place_of_full b (setPending evs s) h]; rfl

theorem placeAll_with_pending (bs : List Byte) (s : State) (evs : List HostEvent) :
    placeAll bs (setPending evs s) = setPending evs (placeAll bs s) := by
  induction bs generalizing s with
  | nil => rfl
  | cons b bs ih => simp only [placeAll_cons, place_with_pending, ih]

@[simp] theorem placeAll_bitlen (bs : List Byte) (s : State) : (placeAll bs s).bitlen = s.bitlen := by
  induction bs generalizing s with
  | nil => rfl
  | cons b bs ih => simp [ih]

@[simp] theorem placeAll_phase (bs : List Byte) (s : State) : (placeAll bs s).phase = s.phase := by
  induction bs generalizing s with
  | nil => rfl
  | cons b bs ih => simp [ih]

@[simp] theorem placeAll_errcode (bs : List Byte) (s : State) : (placeAll bs s).errcode = s.errcode := by
  induction bs generalizing s with
  | nil => rfl
  | cons b bs ih => simp [ih]

@[simp] theorem placeAll_pending (bs : List Byte) (s : State) : (placeAll bs s).pending = s.pending := by
  induction bs generalizing s with
  | nil => rfl
  | cons b bs ih => simp [ih]

@[simp] theorem placeAll_rdata (bs : List Byte) (s : State) : (placeAll bs s).rdata = s.rdata := by
  induction bs generalizing s with
  | nil => rfl
  | cons b bs ih => simp [ih]

theorem placeAll_bufcnt (bs : List Byte) (s : State) :
    (placeAll bs s).bufcnt = s.bufcnt + BitVec.ofNat 6 bs.length := by
  induction bs generalizing s with
  | nil => simp
  | cons b bs ih =>
    have h1 : BitVec.ofNat 6 (bs.length + 1) = 1 + BitVec.ofNat 6 bs.length := by
      rw [Nat.add_comm, BitVec.ofNat_add]; rfl
    rw [placeAll_cons, ih, place_bufcnt, List.length_cons, h1, BitVec.add_assoc]

/-- Absorbing a list is placing it and adding 8 to BITLEN for each byte, modulo 2^64. -/
theorem absorbAll_eq (bs : List Byte) (s : State) :
    absorbAll bs s = setBitlen (s.bitlen + BitVec.ofNat 64 (8 * bs.length)) (placeAll bs s) := by
  induction bs generalizing s with
  | nil => simp [setBitlen]
  | cons b bs ih =>
    have h8 : s.bitlen + BitVec.ofNat 64 (8 * (bs.length + 1)) = s.bitlen + 8 + BitVec.ofNat 64 (8 * bs.length) := by
      rw [Nat.mul_add, Nat.add_comm, BitVec.ofNat_add, BitVec.add_assoc]; rfl
    rw [absorbAll_cons, ih, absorb, placeAll_with_bitlen, placeAll_cons, List.length_cons, h8]
    rfl

theorem absorbAll_with_phase (bs : List Byte) (s : State) (p : Phase) :
    absorbAll bs (setPhase p s) = setPhase p (absorbAll bs s) := by
  rw [absorbAll_eq, absorbAll_eq, placeAll_with_phase]; rfl

theorem be64bytes_length (x : BitVec 64) : (be64bytes x).length = 8 := by simp [be64bytes]

theorem updateBytes_length (cnt : BitVec 3) (data : Word) : (updateBytes cnt data).length = cnt.toNat := by
  simp [updateBytes]

theorem pendingBytes_length (s : State) : (pendingBytes s).length = s.bufcnt.toNat := by
  have := s.bufcnt.isLt
  simp [pendingBytes]; omega

end Sys2Proof.Machine
end

