-- ==== Sys2Proof/Laws/Stream.lean ====
section
/-! SUPPORT. The one fact behind streaming: whatever bytes are placed, H and the pending bytes are those of the whole byte
stream cut at every 64th byte (40_commands.md rule R100, 20_memory.md rules R54 and R58). -/

namespace Sys2Proof.Machine

theorem blockAt_getElem (l : List Byte) (i j : Nat) (hj : j < 64) : (blockAt l i)[j] = l.getD (64 * i + j) 0 := by
  simp [blockAt]

/-- A block that lies inside a byte list does not see what is appended to it. -/
theorem blockAt_append (l r : List Byte) (i : Nat) (h : 64 * (i + 1) ≤ l.length) : blockAt (l ++ r) i = blockAt l i := by
  apply Vector.ext
  intro j hj
  rw [blockAt_getElem, blockAt_getElem, List.getD_append _ _ _ _ (by omega)]

theorem hashBlocks_append (l r : List Byte) (H : Vector Word 8) (n : Nat) (h : 64 * n ≤ l.length) :
    hashBlocks (l ++ r) H n = hashBlocks l H n := by
  induction n with
  | zero => rfl
  | succ n ih => rw [hashBlocks, hashBlocks, ih (by omega), blockAt_append l r n h]

/-- The pending bytes after `BUF[BUFCNT] <- b`, as a list. -/
theorem bufWith_take (b : Byte) (s : State) :
    (bufWith b s).toList.take (s.bufcnt.toNat + 1) = pendingBytes s ++ [b] := by
  have hlt := s.bufcnt.isLt
  have hlen : s.bufcnt.toNat < s.buf.toList.length := by simpa using hlt
  have hset : (bufWith b s).toList = s.buf.toList.set s.bufcnt.toNat b := by
    simp [bufWith, Vector.toList_set]
  have hlen' : s.bufcnt.toNat < (s.buf.toList.set s.bufcnt.toNat b).length := by simpa using hlen
  rw [hset, List.take_succ_eq_append_getElem hlen']
  simp [pendingBytes, List.take_set_of_le]

theorem pendingBytes_place_of_lt (b : Byte) (s : State) (h : s.bufcnt.toNat < 63) :
    pendingBytes (place b s) = pendingBytes s ++ [b] := by
  have hc : (s.bufcnt + 1).toNat = s.bufcnt.toNat + 1 := by simp [BitVec.toNat_add]; omega
  rw [← bufWith_take b s]
  simp only [pendingBytes, place_buf, place_bufcnt, hc]

theorem pendingBytes_place_of_full (b : Byte) (s : State) (h : s.bufcnt.toNat = 63) : pendingBytes (place b s) = [] := by
  simp [place_of_full b s h, pendingBytes]

/-- The block that the 64th byte completes. -/
theorem bufWith_toList_of_full (b : Byte) (s : State) (h : s.bufcnt.toNat = 63) :
    (bufWith b s).toList = pendingBytes s ++ [b] := by
  rw [← bufWith_take b s, h, List.take_of_length_le (by simp)]

/-- A vector whose bytes are the last 64 of a list is a block of it. -/
theorem eq_blockAt (B : Vector Byte 64) (l : List Byte) (q : Nat) (hB : B.toList = l.drop (64 * q)) : B = blockAt l q := by
  apply Vector.ext
  intro j hj
  have hlen : l.length = 64 * q + 64 := by
    have := congrArg List.length hB
    simp at this; omega
  have h1 : B[j] = B.toList[j]'(by simpa using hj) := by simp
  rw [h1, blockAt_getElem, List.getD_eq_getElem _ _ (by omega)]
  simp [hB]

/-- Placing bytes: H is the compression, in order, of every full block of the pending bytes followed by the new ones, and what
is left over is pending (40_commands.md rule R100). -/
theorem placeAll_stream (bs : List Byte) (s : State) :
    (placeAll bs s).h = hashBlocks (pendingBytes s ++ bs) s.h ((pendingBytes s ++ bs).length / 64) ∧
    pendingBytes (placeAll bs s) = (pendingBytes s ++ bs).drop (64 * ((pendingBytes s ++ bs).length / 64)) := by
  induction bs using List.reverseRecOn with
  | nil =>
    have hlt := s.bufcnt.isLt
    have h0 : s.bufcnt.toNat / 64 = 0 := by omega
    simp [pendingBytes_length, h0, hashBlocks]
  | append_singleton bs b ih =>
    obtain ⟨ihH, ihP⟩ := ih
    set l := pendingBytes s ++ bs with hl
    set s' := placeAll bs s with hs'
    have hlast : placeAll (bs ++ [b]) s = place b s' := by rw [placeAll_append]; rfl
    have hl' : pendingBytes s ++ (bs ++ [b]) = l ++ [b] := by simp [hl]
    have hcnt : s'.bufcnt.toNat = l.length - 64 * (l.length / 64) := by
      rw [← pendingBytes_length, ihP, List.length_drop]
    have hq : 64 * (l.length / 64) ≤ l.length := by omega
    rw [hlast, hl', List.length_append, List.length_singleton]
    rcases Nat.lt_or_ge s'.bufcnt.toNat 63 with h | h
    · have hsame : (l.length + 1) / 64 = l.length / 64 := by omega
      rw [hsame, hashBlocks_append l [b] s.h _ hq, pendingBytes_place_of_lt b s' h, ihP, List.drop_append_of_le_length hq]
      refine ⟨?_, rfl⟩
      rw [place_h, if_neg (by omega), ihH]
    · have h63 : s'.bufcnt.toNat = 63 := by have := s'.bufcnt.isLt; omega
      have hnext : (l.length + 1) / 64 = l.length / 64 + 1 := by omega
      have hblock : bufWith b s' = blockAt (l ++ [b]) (l.length / 64) := by
        apply eq_blockAt
        rw [bufWith_toList_of_full b s' h63, ihP, List.drop_append_of_le_length hq]
      rw [hnext, pendingBytes_place_of_full b s' h63]
      refine ⟨?_, ?_⟩
      · rw [place_h, if_pos h63, ihH, hashBlocks, hblock, hashBlocks_append l [b] s.h _ hq]
      · rw [List.drop_of_length_le (by simp; omega)]

/-- Placing a list of bytes leaves H as it was while no block is completed. -/
theorem placeAll_h_of_lt (bs : List Byte) (s : State) (h : s.bufcnt.toNat + bs.length < 64) : (placeAll bs s).h = s.h := by
  rw [(placeAll_stream bs s).1]
  have h0 : (pendingBytes s ++ bs).length / 64 = 0 := by simp [pendingBytes_length]; omega
  rw [h0, hashBlocks]

end Sys2Proof.Machine
end

