-- ==== Sys2Proof/Laws/Exec.lean ====
section
/-! SUPPORT. What an instruction and a step can do, each said once. -/

namespace Sys2Proof.Machine

@[simp] theorem flush_bitlen (s : State) : (flush s).bitlen = s.bitlen := by simp [flush]
@[simp] theorem flush_phase (s : State) : (flush s).phase = s.phase := by simp [flush]
@[simp] theorem flush_errcode (s : State) : (flush s).errcode = s.errcode := by simp [flush]
@[simp] theorem flush_pending (s : State) : (flush s).pending = s.pending := by simp [flush]
@[simp] theorem flush_rdata (s : State) : (flush s).rdata = s.rdata := by simp [flush]

/-- UPDATE in sequence (40_commands.md rule R111). -/
theorem execUpdate_inMessage (cnt : BitVec 3) (data : Word) (s : State) (hk : cnt ≤ 4) (hp : s.phase.inMessage = true) :
    execUpdate cnt data s = .next (setPhase .absorbing (absorbAll (updateBytes cnt data) s)) := by
  have h4 : ¬ 4 < cnt := BitVec.not_lt.mpr hk
  rw [execUpdate, if_neg h4]
  cases hs : s.phase <;> simp [hs, Phase.inMessage] at hp ⊢

/-- FINAL in sequence (40_commands.md rule R112). -/
theorem execFinal_inMessage (s : State) (hp : s.phase.inMessage = true) :
    execFinal s = .next (setPhase .finalized (flush s)) := by
  rw [execFinal]
  cases hs : s.phase <;> simp [hs, Phase.inMessage] at hp ⊢

/-- Everything an instruction can do where it answers a next state: INIT loads, a command out of sequence is a usage error,
UPDATE absorbs, FINAL flushes, RD answers. -/
theorem exec_next_cases {i : Instr} {s u : State} (h : exec i s = .next u) :
    (i = .init ∧ u = loadInitial s) ∨
    (i ≠ .init ∧ ∃ code, u = raiseUsageError code s) ∨
    (∃ cnt data, i = .update cnt data ∧ cnt ≤ 4 ∧ s.phase.inMessage = true ∧
      u = setPhase .absorbing (absorbAll (updateBytes cnt data) s)) ∨
    (i = .final ∧ s.phase.inMessage = true ∧ u = setPhase .finalized (flush s)) ∨
    (∃ raddr, i = .rd raddr ∧ u = answerRead (readAt raddr s) s) := by
  cases i with
  | init => exact .inl ⟨rfl, by simpa [exec, execInit] using h.symm⟩
  | rd raddr => exact .inr (.inr (.inr (.inr ⟨raddr, rfl, by simpa [exec, execRd] using h.symm⟩)))
  | update cnt data =>
    simp only [exec, execUpdate] at h
    split at h
    · exact .inr (.inl ⟨by simp, _, by simpa using h.symm⟩)
    · rename_i hk
      have hk' : cnt ≤ 4 := BitVec.not_lt.mp hk
      cases hs : s.phase <;> simp only [hs, Host.Outcome.next.injEq] at h
      · exact .inr (.inl ⟨by simp, _, h.symm⟩)
      · exact .inr (.inr (.inl ⟨cnt, data, rfl, hk', by simp [Phase.inMessage], h.symm⟩))
      · exact .inr (.inr (.inl ⟨cnt, data, rfl, hk', by simp [Phase.inMessage], h.symm⟩))
      · exact .inr (.inl ⟨by simp, _, h.symm⟩)
      · exact .inr (.inl ⟨by simp, _, h.symm⟩)
  | final =>
    simp only [exec, execFinal] at h
    cases hs : s.phase <;> simp only [hs, Host.Outcome.next.injEq] at h
    · exact .inr (.inl ⟨by simp, _, h.symm⟩)
    · exact .inr (.inr (.inr (.inl ⟨rfl, by simp [Phase.inMessage], h.symm⟩)))
    · exact .inr (.inr (.inr (.inl ⟨rfl, by simp [Phase.inMessage], h.symm⟩)))
    · exact .inr (.inl ⟨by simp, _, h.symm⟩)
    · exact .inr (.inl ⟨by simp, _, h.symm⟩)

/-- No instruction reads or writes what is pending. -/
theorem exec_setPending {i : Instr} {s u : State} (evs : List HostEvent) (h : exec i s = .next u) :
    exec i (setPending evs s) = .next (setPending evs u) := by
  cases i with
  | init => cases h; rfl
  | rd raddr => cases h; simp only [exec, execRd, readAt]; cases regOf raddr <;> rfl
  | update cnt data =>
    simp only [exec, execUpdate] at h ⊢
    split at h
    · cases h; rw [if_pos (by assumption)]; rfl
    · rw [if_neg (by assumption), setPending_phase]
      cases hp : s.phase <;> simp only [hp, Host.Outcome.next.injEq] at h ⊢ <;> subst h
      · rfl
      · rw [absorbAll_eq, absorbAll_eq, placeAll_with_pending]; rfl
      · rw [absorbAll_eq, absorbAll_eq, placeAll_with_pending]; rfl
      · rfl
      · rfl
  | final =>
    simp only [exec, execFinal] at h ⊢
    rw [setPending_phase]
    cases hp : s.phase <;> simp only [hp, Host.Outcome.next.injEq] at h ⊢ <;> subst h
    · rfl
    · rw [flush, flush, placeAll_with_pending]; rfl
    · rw [flush, flush, placeAll_with_pending]; rfl
    · rfl
    · rfl

theorem exec_pending {i : Instr} {s u : State} (h : exec i s = .next u) : u.pending = s.pending := by
  rcases exec_next_cases h with ⟨rfl, rfl⟩ | ⟨_, c, rfl⟩ | ⟨_, _, _, _, _, rfl⟩ | ⟨rfl, _, rfl⟩ | ⟨_, rfl, rfl⟩ <;>
    simp [absorbAll_eq]

/-- Everything a step can do where it answers a next state: wait, reset, report an illegal command, or execute. -/
theorem step_next_cases {s u : State} (h : step s = .next u) :
    (s.pending = [] ∧ u = s) ∨
    (∃ p rest, s.pending = .reset p :: rest ∧ u = applyReset (setPending rest s)) ∨
    (∃ tr why rest, s.pending = .serve tr :: rest ∧ decode tr = .illegal why ∧
      u = raiseUsageError .illegalCmd (setPending rest s)) ∨
    (∃ tr i rest, s.pending = .serve tr :: rest ∧ decode tr = .instr i ∧
      exec i (setPending rest s) = .next u) := by
  simp only [step, acceptNext] at h
  cases hp : s.pending with
  | nil => simp only [hp, Host.Outcome.next.injEq] at h; exact .inl ⟨rfl, h.symm⟩
  | cons ev rest =>
    simp only [hp, serveEvent] at h
    cases ev with
    | reset p => simp only [Host.Outcome.next.injEq] at h; exact .inr (.inl ⟨p, rest, rfl, h.symm⟩)
    | serve tr =>
      simp only [serveTransaction] at h
      cases hd : decode tr with
      | instr i => rw [hd] at h; exact .inr (.inr (.inr ⟨tr, i, rest, rfl, hd, h⟩))
      | illegal why =>
        rw [hd] at h
        simp only [Host.Outcome.next.injEq] at h
        exact .inr (.inr (.inl ⟨tr, why, rest, rfl, hd, h.symm⟩))

end Sys2Proof.Machine
end

