-- ==== Sys2Proof/Laws/PerInstr.lean ====
section
/-! SUPPORT. The family `EncodesLegally`: what the encoder writes for a well-formed command is a legal command word
(30_encoding.md rules R75 and R79), one lemma per constructor of Instr. -/

namespace Sys2Proof.Laws.EncodesLegally

/-- The command word of a well-formed instruction, if its transaction is a command, satisfies rule R75's predicate. -/
def Statement (i : Instr) : Prop :=
  i.wf = true → ∀ cmd data, encode i = .command cmd data → legalCmd cmd = true

theorem init : Statement .init := by
  intro _ cmd data h
  simp only [encode, Transaction.command.injEq] at h
  rw [← h.1]; decide

theorem update (cnt : BitVec 3) (data : Word) : Statement (.update cnt data) := by
  have key : ∀ c : BitVec 3, c ≤ 4 → legalCmd (packCmd c 2) = true := by decide
  intro hwf cmd d h
  simp only [encode, Transaction.command.injEq] at h
  rw [← h.1]
  exact key cnt (by simpa [Instr.wf] using hwf)

theorem final : Statement .final := by
  intro _ cmd data h
  simp only [encode, Transaction.command.injEq] at h
  rw [← h.1]; decide

theorem rd (raddr : BitVec 8) : Statement (.rd raddr) := by
  intro _ cmd data h
  simp [encode] at h

end Sys2Proof.Laws.EncodesLegally
end

