-- ==== Sys2Proof/Laws/System.lean ====
section
/-! SUPPORT. Several engine instances: there is at least one, and what a step of one of them can do. -/

namespace Sys2Proof.Machine

@[simp] theorem systemReset_getElem (n : ℕ+) (i : Nat) (hi : i < n) : (systemReset n)[i] = State.reset := by
  simp [systemReset]

/-- Every system has an engine: its first instance is there, after its reset (00_scope.md rule R11). -/
theorem systemReset_first (n : ℕ+) : (systemReset n)[0]'n.pos = State.reset := systemReset_getElem n 0 n.pos

/-- Everything a step of instance `i` can do where it answers a next system: the step of that instance, put in its place. -/
theorem systemStep_next_iff {n : ℕ+} (i : Fin n) (sys t : System n) :
    systemStep i sys = .next t ↔ ∃ s, step sys[i] = .next s ∧ t = sys.set i s := by
  unfold systemStep
  cases step sys[i] <;> simp [eq_comm]

end Sys2Proof.Machine
end

