-- ==== Sys2Proof/Tests/Slice0.lean ====
section
/-! SUPPORT. Tests: the ill-formed term, words written out from the encoding tables, at most two one-step tests an instruction with
the values of 95_test_vectors.md, and for every obligation with hypotheses or clauses a state and operands that meet them. -/

namespace Sys2Proof.Tests

open Sys2Proof.Machine

/-! ## WellFormed: the check there is refuses an ill-formed term -/

theorem test_wf_refuses_cnt_5 : (Instr.update 5 0).wf = false := by decide
theorem test_wf_accepts_cnt_4 : (Instr.update 4 0).wf = true := by decide
theorem test_wf_accepts_the_others :
    Instr.init.wf = true ∧ Instr.final.wf = true ∧ (Instr.rd 0xFF).wf = true := by decide

/-! ## Decoding: words from 30_encoding.md rules R71, R72, R79 and 95_test_vectors.md section 2.5 -/

-- RSV 25 zeros, CNT 000, OP 0001
theorem test_decode_init : decode (.command 0b0000000000000000000000000_000_0001 0xdeadbeef) = .instr .init := by decide
-- CNT 011, OP 0010
theorem test_decode_update :
    decode (.command 0b0000000000000000000000000_011_0010 0x61626300) = .instr (.update 3 0x61626300) := by decide
-- CNT 000, OP 0011
theorem test_decode_final : decode (.command 0b0000000000000000000000000_000_0011 0) = .instr .final := by decide
-- DIGEST7
theorem test_decode_rd : decode (.read 0b00111100) = .instr (.rd 0x3C) := by decide
theorem test_encode_update : encode (.update 4 0x61626364) = .command 0x00000042 0x61626364 := by decide
theorem test_encode_init_final :
    encode .init = .command 0x00000001 0 ∧ encode .final = .command 0x00000003 0 := by decide
theorem test_decode_illegal_words :
    decode (.command 0x00000000 0) = .illegal .reservedOpcode ∧
    decode (.command 0x0000000f 0) = .illegal .reservedOpcode ∧
    decode (.command 0x00000011 0) = .illegal .illegalCount ∧
    decode (.command 0x00000052 0) = .illegal .illegalCount ∧
    decode (.command 0x00000013 0) = .illegal .illegalCount ∧
    decode (.command 0x00000082 0) = .illegal .reservedBitSet ∧
    decode (.command 0x80000001 0) = .illegal .reservedBitSet := by decide
theorem test_table_words :
    decodeTableWord 32 1 = some .init ∧ decodeTableWord 32 0x42 = some (.update 4 0) ∧
    decodeTableWord 32 3 = some .final ∧ decodeTableWord 8 0x20 = some (.rd 0x20) ∧
    decodeTableWord 64 0x6162630000000032 = some (.update 3 0x61626300) ∧ decodeTableWord 32 0x52 = none := by decide

/-! ## Small states -/

/-- After INIT. -/
def ready : State := loadInitial State.reset

/-- In ABSORBING with a given BUFCNT, BITLEN to match, over zeroed cells. -/
def absorbing (n : Nat) : State :=
  setPhase .absorbing (setBitlen (BitVec.ofNat 64 (8 * n)) (setBufcnt (BitVec.ofNat 6 n) ready))

/-- After INIT and the bytes of "abc". -/
def absorbedAbc : State := setPhase .absorbing (absorbAll [0x61, 0x62, 0x63] ready)

/-- In FINALIZED, with the digest of "abc" (95_test_vectors.md V-S3) in H. -/
def finalizedAbc : State :=
  { setPhase .finalized (setBitlen 24 ready) with
    h := #v[0xba7816bf, 0x8f01cfea, 0x414140de, 0x5dae2223, 0xb00361a3, 0x96177a9c, 0xb410ff61, 0xf20015ad] }

/-- In FAULT with code 2. -/
def faulted : State := raiseUsageError .updateBeforeInit State.reset

/-- The state an outcome leaves, or the given one where it stops. -/
def nextOr (d : State) : Host.Outcome State Fault Refusal → State
  | .next s => s
  | .fault _ => d
  | .refused _ => d

/-- STATUS and BITLEN_LO after an instruction. -/
def after (i : Instr) (s : State) : Word × Word :=
  (readAt 0x00 (nextOr s (exec i s)), readAt 0x04 (nextOr s (exec i s)))

/-! ## The commands: 95_test_vectors.md sections 2.6 to 2.10 -/

theorem test_init_from_fault : after .init faulted = (0x00000001, 0) := by decide +kernel
theorem test_init_loads_iv : (nextOr faulted (exec .init faulted)).h[7] = 0x5be0cd19 := by decide +kernel
theorem test_update_abc : after (.update 3 0x61626300) ready = (0x00030002, 0x00000018) := by decide +kernel
theorem test_update_completes_block : after (.update 4 0x62626262) (absorbing 62) = (0x00020002, 0x00000210) := by
  decide +kernel
theorem test_update_before_init : after (.update 3 0x61626300) State.reset = (0x00000204, 0) := by decide +kernel
/-- 95_test_vectors.md V-S3: the digest of "abc", one FINAL. -/
theorem test_final_abc :
    (nextOr absorbedAbc (exec .final absorbedAbc)).h =
      #v[0xba7816bf, 0x8f01cfea, 0x414140de, 0x5dae2223, 0xb00361a3, 0x96177a9c, 0xb410ff61, 0xf20015ad] := by
  decide +kernel
theorem test_final_after_final : after .final finalizedAbc = (0x00000504, 0x00000018) := by decide +kernel
theorem test_rd_digest7 : (nextOr finalizedAbc (exec (.rd 0x3C) finalizedAbc)).rdata = 0xf20015ad := by decide +kernel
theorem test_rd_hidden_and_misaligned :
    readAt 0x20 absorbedAbc = 0 ∧ readAt 0x21 finalizedAbc = 0 ∧ readAt 0x40 finalizedAbc = 0 ∧
    readAt 0x1C finalizedAbc = 0 ∧ readAt 0x24 finalizedAbc = 0x8f01cfea := by decide +kernel
theorem test_illegal_keeps_bufcnt :
    readAt 0x00 (nextOr absorbedAbc (serveTransaction (.command 0x00000082 0) absorbedAbc)) = 0x00030104 := by
  decide +kernel
theorem test_fault_keeps_first_code :
    readAt 0x00 (nextOr faulted (serveTransaction (.command 0x0000000f 0) faulted)) = 0x00000204 := by decide +kernel
/-- 95_test_vectors.md section 2.4: the carry into BITLEN_HI. -/
theorem test_bitlen_carries :
    (absorb 0 (setBitlen 0x00000000fffffff8 ready)).bitlen = 0x0000000100000000 ∧
    (absorb 0 (setBitlen 0xfffffffffffffff8 ready)).bitlen = 0 := by decide +kernel

/-! ## The core: 95_test_vectors.md sections 2.1 to 2.3 -/

theorem test_mixing :
    smallSigma0 0x6a09e667 = 0xba0cf582 ∧ smallSigma1 0x6a09e667 = 0xcfe5da3c ∧ bigSigma0 0x6a09e667 = 0xce20b47e ∧
    bigSigma1 0x6a09e667 = 0x55b65510 ∧ choice 0x510e527f 0x9b05688c 0x1f83d9ab = 0x1f85c98c ∧
    majority 0x510e527f 0x9b05688c 0x1f83d9ab = 0x1b0758af := by decide +kernel
theorem test_schedule_abc :
    (schedule (blockAt (0x61 :: 0x62 :: 0x63 :: pad 24 3) 0))[16] = 0x61626380 ∧
    (schedule (blockAt (0x61 :: 0x62 :: 0x63 :: pad 24 3) 0))[31] = 0xd3b7973b := by decide +kernel
theorem test_rounds_abc :
    varsAfter (schedule (blockAt (0x61 :: 0x62 :: 0x63 :: pad 24 3) 0)) initialHash 4 (by decide) =
      ⟨0xd550f666, 0xc8c347a7, 0x5a6ad9ad, 0x5d6aebcd, 0x24e00850, 0xf92939eb, 0x78ce7989, 0xfa2a4622⟩ := by
  decide +kernel
theorem test_pad_lengths :
    (pad 0 0).length = 64 ∧ (pad 0 55).length = 9 ∧ (pad 0 56).length = 72 ∧ (pad 0 63).length = 65 := by decide +kernel
theorem test_length_suffix : be64bytes 448 = [0, 0, 0, 0, 0, 0, 0x01, 0xc0] := by decide +kernel

/-! ## The port -/

theorem test_reset_runs_placed_word :
    readAt 0x00 (nextOr State.reset (step (State.reset.withFetchWord 32 1))) = 0x00000001 ∧
    readAt 0x00 (nextOr State.reset (step (State.reset.withFetchWord 32 3))) = 0x00000304 := by decide +kernel
theorem test_reset_event : (nextOr faulted (step (setPending [.reset (some (.command 2 0))] faulted))).phase = .uninit := by
  decide +kernel

/-! ## The assembler (30_encoding.md rule R82) -/

theorem test_absorb_abcd1 :
    absorbInstrs [0x61, 0x62, 0x63, 0x64, 0x31] = [.update 4 0x61626364, .update 1 0x31000000] := by decide
theorem test_update_b : expandLine (.updateB 0x61) = [.update 1 0x61000000] := by decide
theorem test_text_absorb :
    assembleText ['A', 'B', 'S', 'O', 'R', 'B', ' ', quoteChar, 'a', 'b', 'c', quoteChar, ' ', ';', 'x'] =
      some [.command 0x00000032 0x61626300] := by decide
theorem test_text_update :
    assembleText ['U', 'P', 'D', 'A', 'T', 'E', ' ', '3', ',', ' ', '0', 'x', '6', '1', '6', '2', '6', '3', '0', '0'] =
      some [.command 0x00000032 0x61626300] := by decide
theorem test_text_rd : assembleText ['R', 'D', ' ', 'D', 'I', 'G', 'E', 'S', 'T', '7'] = some [.read 0x3C] := by decide
theorem test_text_refuses_cnt_5 :
    assembleText ['U', 'P', 'D', 'A', 'T', 'E', ' ', '5', ',', ' ', '0'] = none := by decide

/-! ## Witnesses: what meets the hypotheses and clauses of the obligations -/

theorem witness_ResetLeavesUninitAndZeroCounts :
    (setPending [.reset none] absorbedAbc).pending = .reset none :: [] ∧
    (setPending [.reset (some (.command 3 0)), .serve (.read 0)] absorbedAbc).pending =
      .reset (some (.command 3 0)) :: [.serve (.read 0)] := ⟨rfl, rfl⟩
theorem witness_WaitingHoldsState : absorbedAbc.pending = [] := by decide +kernel
theorem witness_StepRunsDecodedInstruction :
    (setPending [.serve (.command 0x12 0x61000000)] ready).pending = .serve (.command 0x12 0x61000000) :: [] ∧
    decode (.command 0x12 0x61000000) = .instr (.update 1 0x61000000) ∧ (Instr.update 1 0x61000000).WellFormed := by
  decide +kernel
theorem witness_PortServesInOrder :
    (∀ i ∈ [Instr.init, .update 3 0x61626300, .final, .rd 0x20], i.WellFormed) ∧
    (setPending ([Instr.init, .update 3 0x61626300, .final, .rd 0x20].map (fun i => HostEvent.serve (encode i)) ++ [])
      State.reset).pending =
      [Instr.init, .update 3 0x61626300, .final, .rd 0x20].map (fun i => HostEvent.serve (encode i)) ++ [] :=
  ⟨by decide, rfl⟩
theorem witness_DecodeOfEncodeIsIdentity :
    Instr.init.WellFormed ∧ (Instr.update 0 0).WellFormed ∧ (Instr.update 4 0xffffffff).WellFormed ∧
    Instr.final.WellFormed ∧ (Instr.rd 0xff).WellFormed := by decide
theorem witness_EncodeOfDecodeGivesBackTheCommand :
    decode (.command 0x42 7) = .instr (.update 4 7) ∧ decode (.command 1 7) = .instr .init ∧
    decode (.command 3 7) = .instr .final ∧ decode (.read 0xff) = .instr (.rd 0xff) := by decide
theorem witness_LegalityPredicate_both_clauses :
    legalCmd 0x42 = true ∧ legalCmd 0x52 = false ∧ legalCmd 0x82 = false ∧ legalCmd 0x13 = false := by decide
theorem witness_LegalCommandWords_last_clause : decode (.command 0x52 0) = .illegal .illegalCount := by decide
theorem witness_IllegalCommandIsUsageError :
    (setPending [.serve (.command 0x52 0)] absorbedAbc).pending = .serve (.command 0x52 0) :: [] ∧
    legalCmd 0x52 = false ∧ legalCmd 0x0 = false ∧ legalCmd 0x4 = false ∧ legalCmd 0xf = false ∧ legalCmd 0x11 = false ∧
    absorbedAbc.phase ≠ .fault ∧ faulted.phase = .fault := by decide +kernel
theorem witness_UpdateCarriesLeadingLanes :
    (2 : BitVec 3) ≤ 4 ∧
    ∀ j < (2 : BitVec 3).toNat,
      (0x6162ffff : Word).extractLsb' (24 - 8 * j) 8 = (0x61620000 : Word).extractLsb' (24 - 8 * j) 8 := by decide
theorem witness_UpdateResult_both_clauses :
    (4 : BitVec 3) ≤ 4 ∧ ready.phase = .ready ∧ (absorbing 59).phase = .absorbing ∧
    (absorbing 59).bufcnt.toNat + (4 : BitVec 3).toNat = 63 ∧ (absorbing 60).bufcnt.toNat + (4 : BitVec 3).toNat = 64 := by
  decide +kernel
theorem witness_UpdateBufferAndFrame :
    (4 : BitVec 3) ≤ 4 ∧ (absorbing 62).phase = .absorbing ∧ ((absorbing 62).bufcnt.toNat + 3) % 64 = 1 ∧
    ∀ j < (4 : BitVec 3).toNat, 2 ≠ ((absorbing 62).bufcnt.toNat + j) % 64 := by decide +kernel
theorem witness_FinalResult_both_clauses :
    (absorbing 55).phase = .absorbing ∧ (absorbing 55).bufcnt.toNat ≤ 55 ∧ (absorbing 56).phase = .absorbing ∧
    ¬ (absorbing 56).bufcnt.toNat ≤ 55 := by decide +kernel
theorem witness_PaddingFillsTheBlock_both_clauses :
    (55 : BitVec 6).toNat ≤ 55 ∧ (pad 0 55).length = 64 - 55 ∧ ¬ (56 : BitVec 6).toNat ≤ 55 ∧
    (pad 0 56).length = 128 - 56 := by decide +kernel
theorem witness_PlaceAndAbsorbOneByte_both_clauses : (absorbing 63).bufcnt = 63 ∧ (absorbing 62).bufcnt ≠ 63 := by
  decide +kernel
theorem witness_CommandResultTable_every_phase :
    State.reset.phase = .uninit ∧ ready.phase = .ready ∧ (absorbing 0).phase = .absorbing ∧
    finalizedAbc.phase = .finalized ∧ faulted.phase = .fault ∧ (4 : BitVec 3) ≤ 4 ∧ legalCmd 0 = false := by decide +kernel
theorem witness_CompressionsPerInstruction :
    (Instr.update 4 0).WellFormed ∧ Instr.update 4 0 ≠ .init ∧ compressionCount (.update 4 0) (absorbing 60) = 1 ∧
    compressionCount (.update 4 0) (absorbing 59) = 0 ∧ compressionCount .final (absorbing 55) = 1 ∧
    compressionCount .final (absorbing 56) = 2 ∧ compressionCount .final State.reset = 0 := by decide +kernel
theorem witness_IdempotentTransactions :
    (Instr.init = .init) ∧ (∃ d, Instr.update 0 7 = .update 0 d) ∧ ∃ a, Instr.rd 7 = .rd a := ⟨rfl, ⟨7, rfl⟩, ⟨7, rfl⟩⟩
theorem witness_ReadAnswersRegisterMap_each_clause :
    readAt 0x03 finalizedAbc = 0 ∧ readAt 0x00 finalizedAbc = 0x00000003 ∧ readAt 0x04 finalizedAbc = 0x00000018 ∧
    readAt 0x08 finalizedAbc = 0 ∧ readAt 0x0C finalizedAbc = 0 ∧ readAt 0x1C finalizedAbc = 0 ∧
    readAt 0x20 finalizedAbc = 0xba7816bf ∧ readAt 0x3C finalizedAbc = 0xf20015ad ∧ readAt 0x3D finalizedAbc = 0 ∧
    readAt 0x40 finalizedAbc = 0 ∧ readAt 0xFC finalizedAbc = 0 := by decide +kernel
theorem witness_DigestIsThirtyTwoBigEndianBytes :
    (digestBytes finalizedAbc.h)[0]? = some 0xba ∧ (digestBytes finalizedAbc.h)[31]? = some 0xad := by decide +kernel
theorem witness_RegistersAndAddressesCorrespond : regOf 0x20 ≠ .readsZero ∧ regOf 0x3C ≠ .readsZero := by decide
theorem witness_HashHiddenOutsideFinalized : absorbedAbc.phase ≠ .finalized := by decide +kernel
theorem witness_MixingFunctionsBitByBit : 1 ≤ 31 ∧ 31 ≤ 31 ∧ rotr 0x80000000 31 = 0x00000001 := by decide
theorem witness_ScheduleWords_both_clauses : 15 < 16 ∧ 16 ≤ 16 ∧ 16 ≤ 63 ∧ 63 < 64 := by decide
theorem witness_RoundEquations : 0 < 64 ∧ 63 < 64 ∧ 63 + 1 = 64 := by decide
theorem witness_CompressReadsAndWritesOnlyItsOwn : ready.h = (absorbing 3).h ∧ ready ≠ absorbing 3 := by decide +kernel
theorem witness_EveryStepKeepsInvariant : ready.Inv ∧ ∃ u, step (setPending [.serve (.command 3 0)] ready) = .next u := by
  refine ⟨?_, _, rfl⟩
  constructor <;> decide +kernel
theorem witness_OnlyInitOrResetLeavesFault_each_clause :
    faulted.phase = .fault ∧ (∃ u, step (setPending [.serve (.command 3 0)] faulted) = .next u ∧ u.phase = .fault) ∧
    (∃ u, step (setPending [.serve (.command 1 0)] faulted) = .next u ∧ u.phase = .ready) ∧
    ∃ u, step (setPending [.reset none] faulted) = .next u ∧ u.phase = .uninit :=
  ⟨rfl, ⟨_, rfl, rfl⟩, ⟨_, rfl, rfl⟩, ⟨_, rfl, rfl⟩⟩
theorem witness_WhoWritesWhat :
    ∃ u, step (setPending [.serve (.command 0x12 0)] (absorbing 63)) = .next u ∧ u.bitlen = 512 := ⟨_, rfl, rfl⟩
theorem witness_FinalizedOnlyThroughFinal :
    ∃ u, step (setPending [.serve (.command 3 0)] ready) = .next u ∧ u.phase = .finalized := ⟨_, rfl, rfl⟩
theorem witness_DigestFixedWhileReadable :
    finalizedAbc.phase = .finalized ∧
    ∃ u, step (setPending [.serve (.read 0x20)] finalizedAbc) = .next u ∧ u.phase = .finalized := ⟨rfl, _, rfl, rfl⟩
/-- Two different states a host cannot tell apart: cells of BUF past BUFCNT and the scratch state differ. -/
theorem witness_SameToHost :
    (absorbing 0).SameToHost { absorbing 0 with buf := Vector.replicate 64 1, t := 5 } ∧
    absorbing 0 ≠ { absorbing 0 with buf := Vector.replicate 64 1, t := 5 } ∧
    ∃ u, step (absorbing 0) = .next u := by
  refine ⟨⟨rfl, rfl, rfl, rfl, rfl, rfl, fun _ => rfl, fun _ j _ h => ?_⟩, by decide +kernel, _, rfl⟩
  exact absurd h (Nat.not_lt_zero j)
theorem witness_StreamingEquivalence :
    ready.phase = .ready ∧ [Instr.update 3 0x61626300].all isUpdate = true ∧
    [Instr.update 1 0x61000000, .update 0 0xffffffff, .update 2 0x62630000].all isUpdate = true ∧
    [Instr.update 3 0x61626300].flatMap carriedBytes =
      [Instr.update 1 0x61000000, .update 0 0xffffffff, .update 2 0x62630000].flatMap carriedBytes := by decide +kernel
theorem witness_DigestIsSha256OfTheMessage :
    [Instr.update 3 0x61626300].all isUpdate = true ∧
    [Instr.update 3 0x61626300].flatMap carriedBytes = [0x61, 0x62, 0x63] := by decide +kernel
theorem witness_InstancesAreIndependent :
    (⟨0, by decide⟩ : Fin (2 : ℕ+)) ≠ (⟨1, by decide⟩ : Fin (2 : ℕ+)) := by decide

/-- The ends of the first two rows and of the last row of 10_state.md rule R26's table. -/
theorem test_round_constants_by_row :
    roundConstants[7] = 0xab1c5ed5 ∧ roundConstants[8] = 0xd807aa98 ∧ roundConstants[15] = 0xc19bf174 ∧
    roundConstants[56] = 0x748f82ee ∧ roundConstants[63] = 0xc67178f2 := by decide

end Sys2Proof.Tests
end

section
/-! PROOFS. The word functions of SHA-256: each function of Machine/Mixing.lean is described once, bit by bit or by the library's
rotation, and O30 is assembled from those lemmas. -/

namespace Sys2Proof.Machine

/-- For amounts below the word's width, the shifts and the "or" of 00_scope.md rule R13 are the library's rotation. -/
theorem rotr_eq_rotateRight (x : Word) {n : Nat} (hn : n < 32) : rotr x n = x.rotateRight n :=
  (BitVec.rotateRight_eq_rotateRightAux_of_lt hn).symm

/-- `Ch` is a choice bit by bit: the two terms of its "exclusive or" are never both set. -/
theorem getLsbD_choice (x y z : Word) {i : Nat} (hi : i < 32) :
    (choice x y z).getLsbD i = if x.getLsbD i then y.getLsbD i else z.getLsbD i := by
  rw [choice, BitVec.getLsbD_xor, BitVec.getLsbD_and, BitVec.getLsbD_and, BitVec.getLsbD_not]
  cases x.getLsbD i <;> simp [hi]

/-- The "exclusive or" of the three pairwise conjunctions is set exactly when at least two of the bits are. -/
theorem xor_of_ands_eq_majority (a b c : Bool) :
    (a && b ^^ a && c ^^ b && c) = decide (2 ≤ a.toNat + b.toNat + c.toNat) := by
  revert a b c
  decide

theorem getLsbD_majority (x y z : Word) (i : Nat) :
    (majority x y z).getLsbD i =
      decide (2 ≤ (x.getLsbD i).toNat + (y.getLsbD i).toNat + (z.getLsbD i).toNat) := by
  rw [← xor_of_ands_eq_majority]
  simp only [majority, BitVec.getLsbD_xor, BitVec.getLsbD_and]

theorem smallSigma0_eq_rotateRight (x : Word) :
    smallSigma0 x = x.rotateRight 7 ^^^ x.rotateRight 18 ^^^ (x >>> 3) := by
  simp only [smallSigma0, shr, rotr_eq_rotateRight, Nat.reduceLT]

theorem smallSigma1_eq_rotateRight (x : Word) :
    smallSigma1 x = x.rotateRight 17 ^^^ x.rotateRight 19 ^^^ (x >>> 10) := by
  simp only [smallSigma1, shr, rotr_eq_rotateRight, Nat.reduceLT]

theorem bigSigma0_eq_rotateRight (x : Word) :
    bigSigma0 x = x.rotateRight 2 ^^^ x.rotateRight 13 ^^^ x.rotateRight 22 := by
  simp only [bigSigma0, rotr_eq_rotateRight, Nat.reduceLT]

theorem bigSigma1_eq_rotateRight (x : Word) :
    bigSigma1 x = x.rotateRight 6 ^^^ x.rotateRight 11 ^^^ x.rotateRight 25 := by
  simp only [bigSigma1, rotr_eq_rotateRight, Nat.reduceLT]

/-- Settles O30, from the description of each word function by its bits or by rotations. -/
theorem mixingFunctionsBitByBit : Obligations.MixingFunctionsBitByBit := by
  refine ⟨fun x n _ hn => rotr_eq_rotateRight x (Nat.lt_succ_of_le hn), fun x y z i hi => ?_, fun x => ?_⟩
  · exact ⟨getLsbD_choice x y z hi, getLsbD_majority x y z i⟩
  · exact ⟨smallSigma0_eq_rotateRight x, smallSigma1_eq_rotateRight x, bigSigma0_eq_rotateRight x,
      bigSigma1_eq_rotateRight x⟩

end Sys2Proof.Machine
end

section
/-! PROOFS. Which transactions decode to an instruction: the decoder's inversion (30_encoding.md rules R71 to R80). -/

namespace Sys2Proof

/-- CMD is the concatenation of its three fields (30_encoding.md rule R71). -/
theorem cmd_eq_append_fields (cmd : Word) : cmdRsv cmd ++ cmdCnt cmd ++ cmdOp cmd = cmd := by
  calc cmdRsv cmd ++ cmdCnt cmd ++ cmdOp cmd
      = cmd.extractLsb' 4 28 ++ cmdOp cmd :=
        congrArg (· ++ cmdOp cmd) (BitVec.extractLsb'_append_extractLsb'_eq_extractLsb' rfl)
    _ = cmd.extractLsb' 0 32 := BitVec.extractLsb'_append_extractLsb'_eq_extractLsb' rfl
    _ = cmd := BitVec.extractLsb'_eq_self

theorem eq_packCmd {cmd : Word} (hrsv : cmdRsv cmd = 0) : cmd = packCmd (cmdCnt cmd) (cmdOp cmd) := by
  rw [packCmd, ← hrsv, cmd_eq_append_fields]

/-- Which transactions decode to each instruction, in the words of 30_encoding.md rules R79 and R80. -/
theorem transaction_of_decode {tr : Transaction} {i : Instr} (h : decode tr = .instr i) :
    match i with
    | .init => ∃ data, tr = .command 0x00000001 data
    | .update cnt data => cnt ≤ 4 ∧ tr = encode (.update cnt data)
    | .final => ∃ data, tr = .command 0x00000003 data
    | .rd raddr => tr = .read raddr := by
  cases tr with
  | read raddr => cases h; rfl
  | command cmd data =>
    simp only [decode, decodeCommand] at h
    split_ifs at h with hrsv hop hcnt hop hcnt hop hcnt <;> cases h
    all_goals have hcmd := eq_packCmd (not_not.mp hrsv)
    all_goals rw [hop] at hcmd
    · exact ⟨data, by rw [hcmd, hcnt]; rfl⟩
    · exact ⟨hcnt, by rw [encode, ← hcmd]⟩
    · exact ⟨data, by rw [hcmd, hcnt]; rfl⟩

end Sys2Proof
end

section
/-! PROOFS. What absorbing and flushing make of BUFCNT, BITLEN, H and the pending bytes (40_commands.md rules R100 to R103). -/

namespace Sys2Proof.Machine

theorem inMessage_iff {p : Phase} : p.inMessage = true ↔ p = .ready ∨ p = .absorbing := by
  cases p <;> simp [Phase.inMessage]

/-- Given the counts, agreeing below BUFCNT is having the same pending bytes as lists. -/
theorem pendingBytes_eq_iff {s s' : State} (hcnt : s.bufcnt = s'.bufcnt) :
    pendingBytes s = pendingBytes s' ↔ ∀ j (hj : j < 64), j < s.bufcnt.toNat → s.buf[j] = s'.buf[j] := by
  have hlt := s.bufcnt.isLt
  constructor
  · intro h j hj hjs
    have hget := congrArg (·[j]?) h
    simpa [pendingBytes, ← hcnt, List.getElem?_take, hjs, hj] using hget
  · intro h
    apply List.ext_getElem
    · rw [pendingBytes_length, pendingBytes_length, hcnt]
    · intro j hj _
      rw [pendingBytes_length] at hj
      simpa [pendingBytes] using h j (by omega) hj

/-- Each absorbed byte adds 1 to BUFCNT modulo 64 and 8 to BITLEN modulo 2^64, a multiple of 512. -/
theorem absorbAll_bitlen_tracks {s : State} (h : s.bitlen.toNat % 512 = 8 * s.bufcnt.toNat) (bytes : List Byte) :
    (absorbAll bytes s).bitlen.toNat % 512 = 8 * (absorbAll bytes s).bufcnt.toNat := by
  simp only [absorbAll_eq, setBitlen_bitlen, setBitlen_bufcnt, placeAll_bufcnt, BitVec.toNat_add, BitVec.toNat_ofNat]
  omega

theorem absorbAll_updateBytes_bitlen (cnt : BitVec 3) (data : Word) (s : State) :
    (absorbAll (updateBytes cnt data) s).bitlen = s.bitlen + 8 * cnt.setWidth 64 := by
  rw [absorbAll_eq, setBitlen_bitlen, updateBytes_length, BitVec.ofNat_mul, BitVec.ofNat_toNat]
  rfl

/-- How many bytes lie in BUF and in the list to be placed decides how often H is compressed: here at most once. -/
theorem placeAll_h_of_lt_two_blocks {bs : List Byte} {s : State} (hlen : s.bufcnt.toNat + bs.length < 128) :
    (placeAll bs s).h = s.h ∨ ∃ B, (placeAll bs s).h = compressHash B s.h := by
  rcases Nat.lt_or_ge (s.bufcnt.toNat + bs.length) 64 with hlt | hge
  · exact .inl (placeAll_h_of_lt bs s hlt)
  · have hone : (pendingBytes s ++ bs).length / 64 = 1 := by
      rw [List.length_append, pendingBytes_length]
      omega
    exact .inr ⟨_, by rw [(placeAll_stream bs s).1, hone]; rfl⟩

theorem pad_length (L : BitVec 64) (n : BitVec 6) : (pad L n).length = 9 + ((55 : BitVec 6) - n).toNat := by
  simp only [pad, List.length_cons, List.length_append, List.length_replicate, be64bytes_length]
  omega

/-- The padding fills the block that holds the pending bytes, or that one and the next (40_commands.md rule R102). -/
theorem bufcnt_add_pad_length (L : BitVec 64) (n : BitVec 6) :
    n.toNat + (pad L n).length = if n.toNat ≤ 55 then 64 else 128 := by
  rw [pad_length, BitVec.toNat_sub]
  simp only [BitVec.toNat_ofNat, BitVec.ofNat_eq_ofNat]
  split <;> omega

/-- The padding brings BUFCNT to 0 modulo 64 (40_commands.md rules R102 and R103). -/
theorem flush_bufcnt (s : State) : (flush s).bufcnt = 0 := by
  rw [flush, placeAll_bufcnt, pad_length]
  apply BitVec.eq_of_toNat_eq
  simp only [BitVec.toNat_add, BitVec.toNat_sub, BitVec.toNat_ofNat, BitVec.ofNat_eq_ofNat]
  omega

/-- FINAL's padding completes one block or two, each compressed in turn. -/
theorem flush_h (s : State) :
    (∃ B, (flush s).h = compressHash B s.h) ∨ ∃ B B', (flush s).h = compressHash B' (compressHash B s.h) := by
  have hlen : (pendingBytes s ++ pad s.bitlen s.bufcnt).length = if s.bufcnt.toNat ≤ 55 then 64 else 128 := by
    rw [List.length_append, pendingBytes_length, bufcnt_add_pad_length]
  rw [flush, (placeAll_stream _ _).1, hlen]
  split
  · exact .inl ⟨_, rfl⟩
  · exact .inr ⟨_, _, rfl⟩

end Sys2Proof.Machine
end

section
/-! PROOFS. No step stops; and what one step can do, each outcome once, with the transaction the host had issued for it. -/

namespace Sys2Proof.Machine

/-- An instruction answers a next state in every phase (60_exceptions.md rules R166 and R175). -/
theorem exec_total (i : Instr) (s : State) : ∃ u, exec i s = .next u := by
  cases i with
  | init => exact ⟨_, rfl⟩
  | rd raddr => exact ⟨_, rfl⟩
  | update cnt data =>
    simp only [exec, execUpdate]
    split
    · exact ⟨_, rfl⟩
    · cases s.phase <;> exact ⟨_, rfl⟩
  | final =>
    simp only [exec, execFinal]
    cases s.phase <;> exact ⟨_, rfl⟩

theorem serveEvent_total (ev : HostEvent) (s : State) : ∃ u, serveEvent ev s = .next u := by
  cases ev with
  | reset _ => exact ⟨_, rfl⟩
  | serve tr =>
    simp only [serveEvent, serveTransaction]
    cases decode tr with
    | instr i => exact exec_total i s
    | illegal _ => exact ⟨_, rfl⟩

theorem step_total (s : State) : ∃ u, step s = .next u := by
  simp only [step, acceptNext]
  cases s.pending with
  | nil => exact ⟨_, rfl⟩
  | cons ev rest => exact serveEvent_total ev _

/-- An instruction that enters FAULT from another phase records an error (60_exceptions.md rule R161): `exec_next_cases` does
not say which code a rejection has, and this bounds it. -/
theorem exec_errcode_ne_none {i : Instr} {s u : State} (h : exec i s = .next u) (hs : s.phase ≠ .fault)
    (hu : u.phase = .fault) : u.errcode ≠ .none := by
  cases i with
  | init => cases h; cases hu
  | rd raddr => cases h; exact absurd hu hs
  | update cnt data =>
    rw [exec, execUpdate] at h
    split at h
    · cases h; simp [hs]
    · cases hp : s.phase with
      | uninit | finalized => rw [hp] at h; cases h; simp [hs]
      | ready | absorbing => rw [hp] at h; cases h; cases hu
      | fault => exact absurd hp hs
  | final =>
    rw [exec, execFinal] at h
    cases hp : s.phase with
    | uninit | finalized => rw [hp] at h; cases h; simp [hs]
    | ready | absorbing => rw [hp] at h; cases h; cases hu
    | fault => exact absurd hp hs

/-- Everything a step from `s` can do, with what the host had issued for it: `StepEffect s u` holds of every `u` that `step s`
answers (`stepEffect_of_step`). -/
inductive StepEffect (s : State) : State → Prop
  /-- Nothing is issued (60_exceptions.md rule R174). -/
  | wait (hp : s.pending = []) : StepEffect s s
  /-- The reset input (70_reset_and_hazards.md rule R190). -/
  | reset {p : Option Transaction} {rest : List HostEvent} (hp : s.pending = .reset p :: rest) :
      StepEffect s (applyReset (setPending rest s))
  /-- A rejected command (60_exceptions.md rule R161); outside FAULT its code is an error. -/
  | error {tr : Transaction} {rest : List HostEvent} {code : ErrCode} (hp : s.pending = .serve tr :: rest)
      (hcode : s.phase ≠ .fault → code ≠ .none) : StepEffect s (raiseUsageError code (setPending rest s))
  /-- INIT (40_commands.md rule R110). -/
  | init {data : Word} {rest : List HostEvent} (hp : s.pending = .serve (.command 0x00000001 data) :: rest) :
      StepEffect s (loadInitial (setPending rest s))
  /-- A legal UPDATE in sequence (40_commands.md rule R111). -/
  | update {cnt : BitVec 3} {data : Word} {rest : List HostEvent}
      (hp : s.pending = .serve (encode (.update cnt data)) :: rest) (hcnt : cnt ≤ 4) (hin : s.phase.inMessage = true) :
      StepEffect s (setPhase .absorbing (absorbAll (updateBytes cnt data) (setPending rest s)))
  /-- FINAL in sequence (40_commands.md rule R112). -/
  | final {data : Word} {rest : List HostEvent} (hp : s.pending = .serve (.command 0x00000003 data) :: rest)
      (hin : s.phase.inMessage = true) : StepEffect s (setPhase .finalized (flush (setPending rest s)))
  /-- A read (40_commands.md rule R113). -/
  | read {raddr : BitVec 8} {rest : List HostEvent} (hp : s.pending = .serve (.read raddr) :: rest) :
      StepEffect s (answerRead (readAt raddr (setPending rest s)) (setPending rest s))

theorem stepEffect_of_step {s u : State} (h : step s = .next u) : StepEffect s u := by
  rcases step_next_cases h with ⟨hp, rfl⟩ | ⟨p, rest, hp, rfl⟩ | ⟨tr, why, rest, hp, _, rfl⟩ | ⟨tr, i, rest, hp, hd, hx⟩
  · exact .wait hp
  · exact .reset hp
  · exact .error hp fun _ => by decide
  · rcases exec_next_cases hx with ⟨rfl, rfl⟩ | ⟨_, code, rfl⟩ | ⟨cnt, data, rfl, hcnt, hin, rfl⟩ | ⟨rfl, hin, rfl⟩ |
      ⟨raddr, rfl, rfl⟩
    · obtain ⟨data, rfl⟩ := transaction_of_decode hd
      exact .init hp
    · refine .error hp fun hs => ?_
      simpa [hs] using exec_errcode_ne_none hx hs rfl
    · obtain ⟨_, htr⟩ := transaction_of_decode hd
      rw [htr] at hp
      exact .update hp hcnt hin
    · obtain ⟨data, rfl⟩ := transaction_of_decode hd
      exact .final hp hin
    · rw [show tr = .read raddr from transaction_of_decode hd] at hp
      exact .read hp

end Sys2Proof.Machine
end

section
/-! PROOFS. The invariants of 10_state.md rule R41: each operation keeps them, and so does a step (O36, O37). -/

namespace Sys2Proof.Machine

/-- Settles O36. -/
theorem resetMeetsInvariant : Obligations.ResetMeetsInvariant where
  ready_empty h := by cases h
  bitlen_tracks h := by cases h
  finalized_flushed h := by cases h
  uninit_clear _ := ⟨rfl, rfl, rfl⟩
  error_iff_fault := by decide

/-- Inv reads nothing that `setPending` writes. -/
theorem State.Inv.setPending {s : State} (h : s.Inv) (evs : List HostEvent) : (setPending evs s).Inv := { h with }

theorem applyReset_inv (s : State) : (applyReset s).Inv := { resetMeetsInvariant with }

/-- Rejections keep BUFCNT and BITLEN; in FAULT, Inv bounds the error alone. -/
theorem State.Inv.raiseUsageError {s : State} (h : s.Inv) {code : ErrCode} (hcode : s.phase ≠ .fault → code ≠ .none) :
    (raiseUsageError code s).Inv where
  ready_empty hp := by cases hp
  bitlen_tracks hp := by cases hp
  finalized_flushed hp := by cases hp
  uninit_clear hp := by cases hp
  error_iff_fault := by
    by_cases hs : s.phase = .fault
    · simp [hs, h.error_iff_fault]
    · simp [hs, hcode]

theorem loadInitial_inv (s : State) : (loadInitial s).Inv where
  ready_empty _ := ⟨rfl, rfl⟩
  bitlen_tracks _ := rfl
  finalized_flushed hp := by cases hp
  uninit_clear hp := by cases hp
  error_iff_fault := by simp

theorem State.Inv.answerRead {s : State} (h : s.Inv) (v : Word) : (answerRead v s).Inv := { h with }

theorem State.Inv.errcode_eq_none {s : State} (h : s.Inv) (hin : s.phase.inMessage = true) : s.errcode = .none := by
  by_contra herr
  simp [h.error_iff_fault.mp herr, Phase.inMessage] at hin

theorem State.Inv.absorbAll {s : State} (h : s.Inv) (hin : s.phase.inMessage = true) (bytes : List Byte) :
    (setPhase .absorbing (Machine.absorbAll bytes s)).Inv where
  ready_empty hp := by cases hp
  bitlen_tracks _ := absorbAll_bitlen_tracks (h.bitlen_tracks hin) bytes
  finalized_flushed hp := by cases hp
  uninit_clear hp := by cases hp
  error_iff_fault := by simp [absorbAll_eq, h.errcode_eq_none hin]

theorem State.Inv.flush {s : State} (h : s.Inv) (hin : s.phase.inMessage = true) :
    (setPhase .finalized (Machine.flush s)).Inv where
  ready_empty hp := by cases hp
  bitlen_tracks hp := by cases hp
  finalized_flushed _ := by
    have := h.bitlen_tracks hin
    simp only [setPhase_bufcnt, flush_bufcnt, setPhase_bitlen, flush_bitlen, true_and]
    omega
  uninit_clear hp := by cases hp
  error_iff_fault := by simp [h.errcode_eq_none hin]

/-- Settles O37, by the cases of a step: each is one of the operations above on the state without the event served. -/
theorem everyStepKeepsInvariant : Obligations.EveryStepKeepsInvariant := by
  intro s u h hstep
  cases stepEffect_of_step hstep with
  | wait => exact h
  | reset => exact applyReset_inv _
  | error _ hcode => exact (h.setPending _).raiseUsageError hcode
  | init => exact loadInitial_inv _
  | @update _ _ rest _ _ hin => exact (h.setPending rest).absorbAll hin _
  | @final _ rest _ hin => exact (h.setPending rest).flush hin
  | read => exact (h.setPending _).answerRead _

end Sys2Proof.Machine
end

section
/-! PROOFS. The read port: the register map, STATUS, BITLEN and the digest (10_state.md rules R31 to R35: O24 to O29). -/

namespace Sys2Proof.Machine

theorem regOf_raddrOf (r : Reg) : regOf (raddrOf r) = r := by
  cases r with
  | digest i => revert i; decide
  | status | bitlenLo | bitlenHi | readsZero => decide

/-- Checked at each of the 256 addresses. -/
theorem raddrOf_regOf {a : BitVec 8} : regOf a ≠ .readsZero → raddrOf (regOf a) = a := by
  revert a
  decide

/-- The register map of 10_state.md rule R31 with the address as a number, checked at each of the 256 addresses. -/
theorem regOf_eq (a : BitVec 8) :
    regOf a =
      if a.toNat % 4 ≠ 0 then .readsZero
      else if a.toNat = 0x00 then .status
      else if a.toNat = 0x04 then .bitlenLo
      else if a.toNat = 0x08 then .bitlenHi
      else if h : 0x20 ≤ a.toNat ∧ a.toNat ≤ 0x3C then .digest ⟨(a.toNat - 0x20) / 4, by omega⟩
      else .readsZero := by
  revert a
  decide

/-- Settles O28. -/
theorem registersAndAddressesCorrespond : Obligations.RegistersAndAddressesCorrespond :=
  ⟨regOf_raddrOf, fun _ => raddrOf_regOf⟩

/-- Settles O24, from the register map with the address as a number. -/
theorem readAnswersRegisterMap : Obligations.ReadAnswersRegisterMap := by
  intro a s
  rw [exec, execRd, readAt, answerRead, regOf_eq]
  congr 2
  split_ifs with _ _ _ _ hdigest hfin
  iterate 4 rfl
  · have hi : (a.toNat - 0x20) / 4 < 8 := by omega
    rw [regRead, if_pos hfin, Vector.getElem?_eq_getElem hi]
    rfl
  · exact if_neg hfin
  · rfl

/-- The fields of STATUS (10_state.md rule R32): each cut of the concatenation below a field drops the part under it. -/
theorem statusWord_fields (s : State) :
    (statusWord s).extractLsb' 0 3 = phaseCode s.phase ∧
    (statusWord s).extractLsb' 3 5 = 0 ∧
    (statusWord s).extractLsb' 8 4 = errCodeValue s.errcode ∧
    (statusWord s).extractLsb' 12 4 = 0 ∧
    (statusWord s).extractLsb' 16 6 = s.bufcnt ∧
    (statusWord s).extractLsb' 22 10 = 0 := by
  have hpad : (statusWord s).extractLsb' 22 10 = 0 := by
    ext i hi
    simp [statusWord]
  refine ⟨?_, ?_, ?_, ?_, ?_, hpad⟩ <;> rw [statusWord, BitVec.extractLsb'_setWidth_of_le (by decide)]
  · exact BitVec.extractLsb'_append_eq_right
  · rw [BitVec.extractLsb'_append_eq_of_le (by decide)]
    exact BitVec.extractLsb'_append_eq_right
  · iterate 2 rw [BitVec.extractLsb'_append_eq_of_le (by decide)]
    exact BitVec.extractLsb'_append_eq_right
  · iterate 3 rw [BitVec.extractLsb'_append_eq_of_le (by decide)]
    exact BitVec.extractLsb'_append_eq_right
  · iterate 4 rw [BitVec.extractLsb'_append_eq_of_le (by decide)]
    exact BitVec.extractLsb'_eq_self

/-- Settles O25. -/
theorem statusFields : Obligations.StatusFields := by
  intro s
  have hread : readAt 0x00 s = statusWord s := rfl
  obtain ⟨hphase, h3, herr, h12, hcnt, h22⟩ := statusWord_fields s
  rw [hread]
  refine ⟨hphase.trans ?_, h3, herr.trans ?_, h12, hcnt, h22⟩
  · cases s.phase <;> rfl
  · cases s.errcode <;> rfl

/-- Settles O26: the first read leaves BITLEN, and two adjacent halves are the whole. -/
theorem bitlenReadInTwoHalves : Obligations.BitlenReadInTwoHalves := fun s =>
  ⟨_, _, rfl, rfl, by
    calc s.bitlen.extractLsb' 32 32 ++ s.bitlen.extractLsb' 0 32
        = s.bitlen.extractLsb' 0 64 := BitVec.extractLsb'_append_extractLsb'_eq_extractLsb' rfl
      _ = s.bitlen := BitVec.extractLsb'_eq_self⟩

/-- What a DIGEST address reads (10_state.md rule R34). -/
theorem readAt_digest (s : State) (i : Fin 8) :
    readAt (0x20 + BitVec.ofNat 8 (4 * i.val)) s = if s.phase = .finalized then s.h[i] else 0 := by
  rw [readAt, show regOf (0x20 + BitVec.ofNat 8 (4 * i.val)) = .digest i from regOf_raddrOf (.digest i), regRead]

/-- Settles O29: only the DIGEST registers read H, and in no other phase. -/
theorem hashHiddenOutsideFinalized : Obligations.HashHiddenOutsideFinalized := by
  intro s H hs
  refine ⟨fun a => ?_, fun i => by rw [readAt_digest, if_neg hs]⟩
  rw [readAt, readAt]
  cases regOf a with
  | digest i => rw [regRead, regRead, if_neg hs, if_neg hs]
  | status | bitlenLo | bitlenHi | readsZero => rfl

theorem getElem?_wordBytes (v : Word) {j : Nat} (hj : j < 4) : (wordBytes v)[j]? = some (lane v j) := by
  simp [wordBytes, hj]

theorem length_flatMap_wordBytes (vs : List Word) : (vs.flatMap wordBytes).length = 4 * vs.length := by
  simp [List.length_flatMap, wordBytes, Nat.mul_comm]

/-- Every word has 4 bytes, so word `i` starts at byte `4 * i`. -/
theorem getElem?_flatMap_wordBytes (vs : List Word) (i : Nat) {j : Nat} (hj : j < 4) :
    (vs.flatMap wordBytes)[4 * i + j]? = vs[i]?.map (lane · j) := by
  induction vs generalizing i with
  | nil => rfl
  | cons v vs ih =>
    have hlen : (wordBytes v).length = 4 := by simp [wordBytes]
    rw [List.flatMap_cons]
    cases i with
    | zero =>
      rw [Nat.mul_zero, Nat.zero_add, List.getElem?_append_left (by omega), getElem?_wordBytes v hj]
      rfl
    | succ i =>
      rw [List.getElem?_append_right (by omega), hlen, show 4 * (i + 1) + j - 4 = 4 * i + j by omega, ih,
        List.getElem?_cons_succ]

/-- Settles O27. -/
theorem digestIsThirtyTwoBigEndianBytes : Obligations.DigestIsThirtyTwoBigEndianBytes := by
  refine fun d => ⟨?_, fun i j hi hj => ?_⟩
  · rw [digestBytes, length_flatMap_wordBytes, Vector.length_toList]
  · rw [digestBytes, getElem?_flatMap_wordBytes _ _ hj]
    simp [lane, hi]

end Sys2Proof.Machine
end

section
/-! PROOFS. Which events write ERRCODE, BITLEN and H, how FINALIZED is entered, and that the digest stays (O39, O40, O41). -/

namespace Sys2Proof.Machine

/-- Settles O39, by the cases of a step. -/
theorem whoWritesWhat : Obligations.WhoWritesWhat := by
  intro s u hstep
  cases stepEffect_of_step hstep with
  | wait => exact .inl ⟨rfl, rfl, rfl⟩
  | reset hp => exact .inr (.inr (.inl ⟨_, _, hp⟩))
  | error hp hcode =>
    by_cases hs : s.phase = .fault
    · exact .inl ⟨by simp [hs], rfl, rfl⟩
    · exact .inr (.inl ⟨hs, rfl, rfl, rfl⟩)
  | init hp => exact .inr (.inr (.inr (.inl ⟨_, _, hp, rfl, rfl, rfl⟩)))
  | @update cnt data rest hp hcnt hin =>
    have hk : cnt.toNat ≤ 4 := hcnt
    have hlen : s.bufcnt.toNat + (updateBytes cnt data).length < 128 := by
      rw [updateBytes_length]
      omega
    refine .inr (.inr (.inr (.inr (.inl ⟨cnt, data, rest, hp, hcnt, inMessage_iff.mp hin, ?_, ?_, ?_⟩))))
    · simp [absorbAll_eq]
    · exact absorbAll_updateBytes_bitlen cnt data (setPending rest s)
    · rw [absorbAll_eq]
      exact placeAll_h_of_lt_two_blocks (s := setPending rest s) hlen
  | @final data rest hp hin =>
    exact .inr (.inr (.inr (.inr (.inr
      ⟨data, rest, hp, inMessage_iff.mp hin, by simp, by simp, flush_h (setPending rest s)⟩))))
  | read => exact .inl ⟨rfl, rfl, rfl⟩

/-- Settles O40, by the cases of a step: the others end in another phase or keep the phase. -/
theorem finalizedOnlyThroughFinal : Obligations.FinalizedOnlyThroughFinal := by
  intro s u hstep hu
  cases stepEffect_of_step hstep with
  | wait | read => exact .inl hu
  | reset | error | init | update => cases hu
  | final hp hin => exact .inr ⟨inMessage_iff.mp hin, _, _, hp⟩

/-- In FINALIZED a command is rejected or is INIT, so a step that stays there waits or answers a read. -/
theorem step_h_of_finalized {s u : State} (hs : s.phase = .finalized) (hstep : step s = .next u)
    (hu : u.phase = .finalized) : u.h = s.h := by
  cases stepEffect_of_step hstep with
  | wait | read => rfl
  | reset | error | init => cases hu
  | update _ _ hin | final _ hin => simp [hs, Phase.inMessage] at hin

/-- Settles O41: H stays, and the phase is the same. -/
theorem digestFixedWhileReadable : Obligations.DigestFixedWhileReadable := by
  intro s u hs hstep hu
  have hh := step_h_of_finalized hs hstep hu
  exact ⟨hh, fun i => by rw [readAt_digest, readAt_digest, hs, hu, hh]⟩

end Sys2Proof.Machine
end

section
/-! PROOFS. What a host can tell apart (10_state.md rule R36): two states that are the same to it read alike, and every operation
and every step leaves two states that are the same to it (O42, O43, O44). -/

namespace Sys2Proof.Machine

namespace State.SameToHost

variable {s s' u : State} (h : s.SameToHost s')
include h

theorem pendingBytes_eq (hin : s.phase.inMessage = true) : Machine.pendingBytes s = Machine.pendingBytes s' :=
  (pendingBytes_eq_iff h.bufcnt).mpr (h.pendingBytes hin)

theorem readAt_eq (a : BitVec 8) : readAt a s = readAt a s' := by
  rw [readAt, readAt]
  cases regOf a with
  | status => rw [regRead, regRead, statusWord, statusWord, h.bufcnt, h.errcode, h.phase]
  | bitlenLo | bitlenHi => rw [regRead, regRead, h.bitlen]
  | digest i =>
    rw [regRead, regRead, ← h.phase]
    split
    next hp => rw [h.hash (.inr hp)]
    next => rfl
  | readsZero => rfl

theorem setPending (evs : List HostEvent) : (setPending evs s).SameToHost (setPending evs s') :=
  { h with pending := rfl }

theorem loadInitial : (loadInitial s).SameToHost (loadInitial s') :=
  { h with
    phase := rfl, errcode := rfl, bufcnt := rfl, bitlen := rfl
    hash := fun _ => rfl, pendingBytes := fun _ _ _ _ => rfl }

theorem applyReset : (applyReset s).SameToHost (applyReset s') :=
  { h with
    phase := rfl, errcode := rfl, bufcnt := rfl, bitlen := rfl
    hash := fun _ => rfl, pendingBytes := fun _ _ _ _ => rfl }

theorem raiseUsageError (code : ErrCode) : (raiseUsageError code s).SameToHost (raiseUsageError code s') :=
  { h with
    phase := rfl
    errcode := by simp [h.phase, h.errcode]
    hash := fun hp => by simp [Phase.inMessage] at hp
    pendingBytes := fun hp => by cases hp }

theorem answerRead (a : BitVec 8) :
    (answerRead (readAt a s) s).SameToHost (answerRead (readAt a s') s') :=
  { h with rdata := h.readAt_eq a }

/-- In sequence H and the pending bytes count, and they decide what placing more bytes makes of both. -/
theorem setPhase_placeAll (hin : s.phase.inMessage = true) (p : Phase) (bytes : List Byte) :
    (setPhase p (placeAll bytes s)).SameToHost (setPhase p (placeAll bytes s')) := by
  have hH := h.hash (.inl hin)
  have hP := h.pendingBytes_eq hin
  have hcnt : (placeAll bytes s).bufcnt = (placeAll bytes s').bufcnt := by
    rw [placeAll_bufcnt, placeAll_bufcnt, h.bufcnt]
  have hbytes : Machine.pendingBytes (placeAll bytes s) = Machine.pendingBytes (placeAll bytes s') := by
    rw [(placeAll_stream bytes s).2, (placeAll_stream bytes s').2, hP]
  exact {
    phase := rfl
    errcode := by simp [h.errcode]
    bufcnt := hcnt
    bitlen := by simp [h.bitlen]
    pending := by simp [h.pending]
    rdata := by simp [h.rdata]
    hash := fun _ => by simp [(placeAll_stream bytes s).1, (placeAll_stream bytes s').1, hP, hH]
    pendingBytes := fun _ => (pendingBytes_eq_iff hcnt).mp hbytes }

theorem setBitlen (L : BitVec 64) : (setBitlen L s).SameToHost (setBitlen L s') :=
  { h with bitlen := rfl }

theorem absorb (hin : s.phase.inMessage = true) (bytes : List Byte) :
    (setPhase .absorbing (absorbAll bytes s)).SameToHost (setPhase .absorbing (absorbAll bytes s')) := by
  rw [absorbAll_eq, absorbAll_eq, ← h.bitlen]
  exact (h.setPhase_placeAll hin .absorbing bytes).setBitlen _

theorem flush (hin : s.phase.inMessage = true) :
    (setPhase .finalized (flush s)).SameToHost (setPhase .finalized (flush s')) := by
  rw [Machine.flush, Machine.flush, ← h.bitlen, ← h.bufcnt]
  exact h.setPhase_placeAll hin .finalized _

theorem execUpdate {cnt : BitVec 3} {data : Word} (hx : execUpdate cnt data s = .next u) :
    ∃ u', execUpdate cnt data s' = .next u' ∧ u.SameToHost u' := by
  rw [Machine.execUpdate] at hx ⊢
  rw [← h.phase, ← h.errcode]
  by_cases hk : 4 < cnt
  · rw [if_pos hk] at hx ⊢
    cases hx
    exact ⟨_, rfl, h.raiseUsageError _⟩
  · rw [if_neg hk] at hx ⊢
    cases hp : s.phase with
    | ready | absorbing => rw [hp] at hx; cases hx; exact ⟨_, rfl, h.absorb (by rw [hp]; rfl) _⟩
    | uninit | finalized | fault => rw [hp] at hx; cases hx; exact ⟨_, rfl, h.raiseUsageError _⟩

theorem execFinal (hx : execFinal s = .next u) : ∃ u', execFinal s' = .next u' ∧ u.SameToHost u' := by
  rw [Machine.execFinal] at hx ⊢
  rw [← h.phase, ← h.errcode]
  cases hp : s.phase with
  | ready | absorbing => rw [hp] at hx; cases hx; exact ⟨_, rfl, h.flush (by rw [hp]; rfl)⟩
  | uninit | finalized | fault => rw [hp] at hx; cases hx; exact ⟨_, rfl, h.raiseUsageError _⟩

theorem exec {i : Instr} (hx : exec i s = .next u) : ∃ u', exec i s' = .next u' ∧ u.SameToHost u' := by
  cases i with
  | init => cases hx; exact ⟨_, rfl, h.loadInitial⟩
  | update cnt data => exact h.execUpdate hx
  | final => exact h.execFinal hx
  | rd raddr => cases hx; exact ⟨_, rfl, h.answerRead raddr⟩

theorem serveEvent {ev : HostEvent} (hx : serveEvent ev s = .next u) :
    ∃ u', serveEvent ev s' = .next u' ∧ u.SameToHost u' := by
  cases ev with
  | reset _ => cases hx; exact ⟨_, rfl, h.applyReset⟩
  | serve tr =>
    simp only [Machine.serveEvent, serveTransaction] at hx ⊢
    cases hd : decode tr with
    | instr i => rw [hd] at hx; exact h.exec hx
    | illegal _ => rw [hd] at hx; cases hx; exact ⟨_, rfl, h.raiseUsageError _⟩

theorem step (hx : step s = .next u) : ∃ u', step s' = .next u' ∧ u.SameToHost u' := by
  rw [Machine.step, acceptNext] at hx ⊢
  rw [← h.pending]
  cases hp : s.pending with
  | nil => rw [hp] at hx; cases hx; exact ⟨_, rfl, h⟩
  | cons ev rest => rw [hp] at hx; exact (h.setPending rest).serveEvent hx

end State.SameToHost

/-- Settles O42. -/
theorem sameToHostReadsAlike : Obligations.SameToHostReadsAlike := fun _ _ a h => h.readAt_eq a

/-- Settles O43: every operation relates the states it leaves, so a step does. -/
theorem hiddenStateNeverShows : Obligations.HiddenStateNeverShows := fun _ _ _ h hx => h.step hx

/-- Settles O44: in UNINIT neither H nor BUF counts. -/
theorem unspecifiedResetValuesAreHidden : Obligations.UnspecifiedResetValuesAreHidden := fun _ _ _ _ _ => {
  phase := rfl, errcode := rfl, bufcnt := rfl, bitlen := rfl, pending := rfl, rdata := rfl
  hash := fun hp => by simp [Phase.inMessage] at hp
  pendingBytes := fun hp => by cases hp }

end Sys2Proof.Machine
end

section
/-! PROOFS. Steps of several engines, in any order (10_state.md rule R42: O48). -/

namespace Sys2Proof.Machine

theorem systemStep_of_step {n : ℕ+} {i : Fin n} {sys : System n} {s : State} (h : step sys[i] = .next s) :
    systemStep i sys = .next (sys.set i s) :=
  (systemStep_next_iff i sys _).mpr ⟨s, h, rfl⟩

/-- Putting a state in place of engine `i` leaves every other engine as it was. -/
theorem system_getElem_set_ne {n : ℕ+} {i k : Fin n} (hk : k ≠ i) (sys : System n) (s : State) :
    (sys.set i s)[k] = sys[k] :=
  Vector.getElem_set_ne i.isLt k.isLt (Fin.val_ne_of_ne hk.symm)

/-- Settles O48: the next states of the two engines are put in two different places. -/
theorem instancesAreIndependent : Obligations.InstancesAreIndependent := by
  intro n sys i j hij
  obtain ⟨u, hu⟩ := step_total sys[i]
  obtain ⟨v, hv⟩ := step_total sys[j]
  have hj : step (sys.set i u)[j] = .next v := by rw [system_getElem_set_ne hij.symm, hv]
  have hi : step (sys.set j v)[i] = .next u := by rw [system_getElem_set_ne hij, hu]
  refine ⟨sys.set i u, sys.set j v, (sys.set i u).set j v, systemStep_of_step hu, systemStep_of_step hv, ?_,
    fun k hk => system_getElem_set_ne hk sys u, systemStep_of_step hj, ?_⟩
  · rw [hu]
    exact congrArg _ (Vector.getElem_set_self i.isLt).symm
  · rw [Vector.set_comm _ _ (Fin.val_ne_of_ne hij)]
    exact systemStep_of_step hi

end Sys2Proof.Machine
end

section
/-! PROOFS. The constants against the primes (10_state.md rules R21 and R26: O34, O35). The integer part of each root is computed,
so that what is left is a comparison of numbers for each entry of the two tables. -/

namespace Sys2Proof.Machine

/-- The integer part of the `k`-th root of `p`, for positive `k` and `p`. -/
def integerRoot (k p : Nat) : Nat := Nat.findGreatest (fun q => q ^ k ≤ p) p

theorem primesBelow_20 : primesBelow 20 = [2, 3, 5, 7, 11, 13, 17, 19] := by decide

theorem primesBelow_312 :
    primesBelow 312 =
      [2, 3, 5, 7, 11, 13, 17, 19, 23, 29, 31, 37, 41, 43, 47, 53,
      59, 61, 67, 71, 73, 79, 83, 89, 97, 101, 103, 107, 109, 113, 127, 131,
      137, 139, 149, 151, 157, 163, 167, 173, 179, 181, 191, 193, 197, 199, 211, 223,
      227, 229, 233, 239, 241, 251, 257, 263, 269, 271, 277, 281, 283, 293, 307, 311] := by
  decide +kernel

/-- Settles O34, with the integer part of the prime's square root as `q`. -/
theorem initialHashFromSquareRoots : Obligations.InitialHashFromSquareRoots := by
  refine ⟨primesBelow_20, fun i => ⟨integerRoot 2 ((primesBelow 20).getD i.val 0), ?_⟩⟩
  rw [primesBelow_20]
  revert i
  decide +kernel

/-- Settles O35, with the integer part of the prime's cube root as `q`. -/
theorem roundConstantsFromCubeRoots : Obligations.RoundConstantsFromCubeRoots := by
  refine ⟨congrArg List.length primesBelow_312, fun t => ⟨integerRoot 3 ((primesBelow 312).getD t.val 0), ?_⟩⟩
  rw [primesBelow_312]
  revert t
  decide +kernel

end Sys2Proof.Machine
end

section
/-! PROOFS. The decoder reads back what the encoder writes (30_encoding.md rules R71 to R80). -/

namespace Sys2Proof

@[simp] theorem cmdOp_packCmd (cnt : BitVec 3) (op : BitVec 4) : cmdOp (packCmd cnt op) = op := by
  rw [cmdOp, packCmd, BitVec.extractLsb'_append_eq_of_add_le (by decide), BitVec.extractLsb'_eq_self]

@[simp] theorem cmdCnt_packCmd (cnt : BitVec 3) (op : BitVec 4) : cmdCnt (packCmd cnt op) = cnt := by
  rw [cmdCnt, packCmd, BitVec.extractLsb'_append_eq_of_le (by decide),
    BitVec.extractLsb'_append_eq_of_add_le (by decide), BitVec.extractLsb'_eq_self]

@[simp] theorem cmdRsv_packCmd (cnt : BitVec 3) (op : BitVec 4) : cmdRsv (packCmd cnt op) = 0 := by
  rw [cmdRsv, packCmd, BitVec.extractLsb'_append_eq_of_le (by decide),
    BitVec.extractLsb'_append_eq_of_le (by decide), BitVec.extractLsb'_eq_self]

/-- From the fields of the packed command word (30_encoding.md rules R74 and R79). -/
theorem decode_encode {i : Instr} (hwf : i.WellFormed) : decode (encode i) = .instr i := by
  cases i with
  | rd raddr => rfl
  | init | final => decide
  | update cnt data =>
    have hcnt : cnt ≤ 4 := of_decide_eq_true hwf
    simpa [encode, decode, decodeCommand] using hcnt

end Sys2Proof
end

section
/-! PROOFS. Byte order is big-endian: the lanes of a word and the bytes of a 64-bit value (20_memory.md rule R53: O13, O14). -/

namespace Sys2Proof.Machine

/-- Adjacent lanes are adjacent bit fields, and the four of them are the whole word. -/
theorem be32_lanes (d : Word) : be32 (lane d 0) (lane d 1) (lane d 2) (lane d 3) = d := by
  calc be32 (lane d 0) (lane d 1) (lane d 2) (lane d 3)
      = d.extractLsb' 16 16 ++ lane d 2 ++ lane d 3 :=
        congrArg (· ++ lane d 2 ++ lane d 3) (BitVec.extractLsb'_append_extractLsb'_eq_extractLsb' rfl)
    _ = d.extractLsb' 8 24 ++ lane d 3 :=
        congrArg (· ++ lane d 3) (BitVec.extractLsb'_append_extractLsb'_eq_extractLsb' rfl)
    _ = d.extractLsb' 0 32 := BitVec.extractLsb'_append_extractLsb'_eq_extractLsb' rfl
    _ = d := BitVec.extractLsb'_eq_self

/-- Settles O13. -/
theorem fourByteUpdateIsAScheduleWord : Obligations.FourByteUpdateIsAScheduleWord :=
  fun d => ⟨be32_lanes d, rfl⟩

/-- The value, in base 256 with the first byte the most significant, of the first `n` bytes of `be64bytes L`: the top `8 * n`
bits of `L`. -/
theorem leadingBytes_value (L : BitVec 64) {n : Nat} (hn : n ≤ 8) :
    ((List.range n).map fun i => L.extractLsb' (56 - 8 * i) 8).foldl (fun acc b => 256 * acc + b.toNat) 0 =
      L.toNat >>> (64 - 8 * n) := by
  induction n with
  | zero => simp [Nat.shiftRight_eq_div_pow, Nat.div_eq_of_lt L.isLt]
  | succ n ih =>
    have hshift : L.toNat >>> (64 - 8 * n) = L.toNat >>> (56 - 8 * n) / 256 := by
      rw [show 64 - 8 * n = 56 - 8 * n + 8 by omega, Nat.shiftRight_add, Nat.shiftRight_eq_div_pow _ 8]
    rw [List.range_succ, List.map_append, List.foldl_append, ih (by omega), hshift]
    simp only [List.map_cons, List.map_nil, List.foldl_cons, List.foldl_nil, BitVec.extractLsb'_toNat]
    rw [show 64 - 8 * (n + 1) = 56 - 8 * n by omega]
    exact Nat.div_add_mod _ 256

/-- Settles O14: all 8 bytes. -/
theorem lengthSuffixIsBigEndian : Obligations.LengthSuffixIsBigEndian :=
  fun L => ⟨be64bytes_length L, leadingBytes_value L (Nat.le_refl 8)⟩

end Sys2Proof.Machine
end

section
/-! PROOFS. Transactions issued through the port are executed whole and in order (20_memory.md rules R55 to R57: O3, O5). -/

namespace Sys2Proof.Machine

/-- Settles O3. -/
theorem stepRunsDecodedInstruction : Obligations.StepRunsDecodedInstruction := by
  intro s tr i rest hp hd _
  simp only [step, acceptNext, hp, serveEvent, serveTransaction, hd]

@[simp] theorem setPending_setPending (evs evs' : List HostEvent) (s : State) :
    setPending evs (setPending evs' s) = setPending evs s := rfl

theorem execSeq_cons_of_next {i : Instr} {s u : State} (h : exec i s = .next u) (is : List Instr) :
    execSeq (i :: is) s = execSeq is u := by
  rw [execSeq, h]

theorem run_succ_of_step {s u : State} (h : step s = .next u) (k : Nat) :
    Host.Core.run core (k + 1) s = Host.Core.run core k u := by
  simp only [Host.Core.run, core, h]

/-- Settles O5, by induction on the instructions: no instruction reads or writes what is pending, so the state after the first
has the others' transactions pending. -/
theorem portServesInOrder : Obligations.PortServesInOrder := by
  intro is rest s hwf hp
  induction is generalizing s with
  | nil =>
    have hs : setPending rest s = s := by rw [← show s.pending = rest from hp]; rfl
    rw [hs]
    rfl
  | cons i is ih =>
    obtain ⟨hi, his⟩ := List.forall_mem_cons.mp hwf
    obtain ⟨u, hu⟩ := exec_total i (setPending (is.map (fun i => HostEvent.serve (encode i)) ++ rest) s)
    have hstep : step s = .next u := (stepRunsDecodedInstruction s _ i _ hp (decode_encode hi) hi).trans hu
    have hexec := exec_setPending rest hu
    rw [setPending_setPending] at hexec
    rw [List.length_cons, run_succ_of_step hstep, execSeq_cons_of_next hexec, ih u his (exec_pending hu)]

end Sys2Proof.Machine
end

section
/-! PROOFS. INIT, UPDATE 0 and a read leave, done twice, what they leave done once (20_memory.md rule R59: O23). -/

namespace Sys2Proof.Machine

/-- In FAULT the first cause is kept (60_exceptions.md rule R161), so a further usage error writes nothing. -/
theorem raiseUsageError_of_fault {s : State} (hs : s.phase = .fault) (code : ErrCode) : raiseUsageError code s = s := by
  rw [raiseUsageError, if_pos hs, ← hs]

theorem exec_update_of_fault {s : State} (hs : s.phase = .fault) (cnt : BitVec 3) (data : Word) :
    exec (.update cnt data) s = .next s := by
  simp only [exec, execUpdate, hs, raiseUsageError_of_fault, ite_self]

/-- UPDATE 0 in sequence moves to ABSORBING and writes nothing else. -/
theorem exec_update_zero_inMessage {s : State} (hin : s.phase.inMessage = true) (data : Word) :
    exec (.update 0 data) s = .next (setPhase .absorbing s) :=
  execUpdate_inMessage 0 data s (by decide) hin

/-- No register shows what the read port last answered. -/
theorem readAt_answerRead (a : BitVec 8) (v : Word) (s : State) : readAt a (answerRead v s) = readAt a s := by
  rw [readAt, readAt]
  cases regOf a <;> rfl

theorem exec_rd_idempotent {a : BitVec 8} {s u : State} (h : exec (.rd a) s = .next u) : exec (.rd a) u = .next u := by
  cases h
  rw [exec, execRd, readAt_answerRead]
  rfl

/-- After UPDATE 0 the phase is FAULT where it was rejected, and ABSORBING where it was in sequence. -/
theorem exec_update_zero_idempotent {data : Word} {s u : State} (h : exec (.update 0 data) s = .next u) :
    exec (.update 0 data) u = .next u := by
  rcases exec_next_cases h with ⟨hi, _⟩ | ⟨_, code, rfl⟩ | ⟨_, _, _, _, hin, _⟩ | ⟨hi, _⟩ | ⟨_, hi, _⟩
  · cases hi
  · exact exec_update_of_fault rfl 0 data
  · rw [exec_update_zero_inMessage hin] at h
    cases h
    exact exec_update_zero_inMessage rfl data
  · cases hi
  · cases hi

/-- Settles O23. -/
theorem idempotentTransactions : Obligations.IdempotentTransactions := by
  intro s i hi
  obtain ⟨u, hu⟩ := exec_total i s
  refine ⟨u, hu, ?_⟩
  rcases hi with rfl | ⟨data, rfl⟩ | ⟨a, rfl⟩
  · cases hu
    rfl
  · exact exec_update_zero_idempotent hu
  · exact exec_rd_idempotent hu

end Sys2Proof.Machine
end

section
/-! PROOFS. The decoder and the encoder are inverse, and the decoder accepts the commands that rule R75's predicate holds of
(30_encoding.md rules R71 to R80: O6, O7, O8, O9, O11). -/

namespace Sys2Proof

/-- Settles O6. -/
theorem decodeOfEncodeIsIdentity : Obligations.DecodeOfEncodeIsIdentity := fun _ => decode_encode

/-- Settles O7, by the transactions that decode to each instruction. -/
theorem encodeOfDecodeGivesBackTheCommand : Obligations.EncodeOfDecodeGivesBackTheCommand := by
  intro tr i h
  have htr := transaction_of_decode h
  cases i with
  | init | final =>
    obtain ⟨data, rfl⟩ := htr
    refine ⟨rfl, nofun, fun cmd data' hcmd => ?_⟩
    cases hcmd
    exact ⟨0, rfl, nofun⟩
  | update cnt data =>
    obtain ⟨hcnt, rfl⟩ := htr
    refine ⟨decide_eq_true hcnt, fun _ _ => rfl, fun cmd data' hcmd => ?_⟩
    cases hcmd
    exact ⟨data, rfl, fun _ _ hi => by cases hi; exact ⟨rfl, rfl⟩⟩
  | rd raddr =>
    cases htr
    exact ⟨rfl, fun _ _ => rfl, nofun⟩

theorem legalCmd_iff {cmd : Word} :
    legalCmd cmd = true ↔
      cmdRsv cmd = 0 ∧
        ((cmdOp cmd = 1 ∧ cmdCnt cmd = 0) ∨ (cmdOp cmd = 2 ∧ cmdCnt cmd ≤ 4) ∨ (cmdOp cmd = 3 ∧ cmdCnt cmd = 0)) := by
  simp only [legalCmd, Bool.and_eq_true, Bool.or_eq_true, beq_iff_eq, decide_eq_true_eq, or_assoc]

theorem legalCmd_encode {i : Instr} {cmd data : Word} (hwf : i.WellFormed) (h : encode i = .command cmd data) :
    legalCmd cmd = true := by
  cases i with
  | init => exact Laws.EncodesLegally.init hwf cmd data h
  | update cnt d => exact Laws.EncodesLegally.update cnt d hwf cmd data h
  | final => exact Laws.EncodesLegally.final hwf cmd data h
  | rd raddr => exact Laws.EncodesLegally.rd raddr hwf cmd data h

/-- What is decoded is well-formed and encodes to the same command word. -/
theorem legalCmd_of_decode {cmd data : Word} {i : Instr} (h : decode (.command cmd data) = .instr i) :
    legalCmd cmd = true := by
  obtain ⟨hwf, _, hcommand⟩ := encodeOfDecodeGivesBackTheCommand _ i h
  obtain ⟨data', hencode, _⟩ := hcommand cmd data rfl
  exact legalCmd_encode hwf hencode

theorem decode_of_legalCmd {cmd : Word} (data : Word) (h : legalCmd cmd = true) :
    decode (.command cmd data) =
      .instr (if cmdOp cmd = 1 then .init else if cmdOp cmd = 2 then .update (cmdCnt cmd) data else .final) := by
  obtain ⟨hrsv, ⟨hop, hcnt⟩ | ⟨hop, hcnt⟩ | ⟨hop, hcnt⟩⟩ := legalCmd_iff.mp h <;>
    simpa [decode, decodeCommand, hrsv, hop] using hcnt

theorem decode_illegal_iff (cmd data : Word) :
    (∃ why, decode (.command cmd data) = .illegal why) ↔ legalCmd cmd = false := by
  constructor
  · rintro ⟨why, hillegal⟩
    refine Bool.eq_false_of_not_eq_true fun hlegal => ?_
    rw [decode_of_legalCmd data hlegal] at hillegal
    cases hillegal
  · intro hlegal
    cases hd : decode (.command cmd data) with
    | illegal why => exact ⟨why, rfl⟩
    | instr i => rw [legalCmd_of_decode hd] at hlegal; cases hlegal

/-- Settles O8. -/
theorem legalityPredicate : Obligations.LegalityPredicate := by
  intro cmd data
  dsimp only
  split
  next h =>
    have hlegal := legalCmd_iff.mpr h
    exact ⟨hlegal, decode_of_legalCmd data hlegal⟩
  next h =>
    have hlegal : legalCmd cmd = false := Bool.eq_false_of_not_eq_true (mt legalCmd_iff.mp h)
    exact ⟨hlegal, (decode_illegal_iff cmd data).mpr hlegal⟩

/-- The five legal command words of UPDATE (30_encoding.md rule R79). -/
theorem packCmd_update_words {cnt : BitVec 3} :
    cnt ≤ 4 → packCmd cnt 2 = 0x00000002 ∨ packCmd cnt 2 = 0x00000012 ∨ packCmd cnt 2 = 0x00000022 ∨
      packCmd cnt 2 = 0x00000032 ∨ packCmd cnt 2 = 0x00000042 := by
  revert cnt
  decide

/-- INIT's word, FINAL's, or one of UPDATE's. -/
theorem command_words_of_decode {cmd data : Word} {i : Instr} (h : decode (.command cmd data) = .instr i) :
    cmd = 0x00000001 ∨ cmd = 0x00000003 ∨
      cmd = 0x00000002 ∨ cmd = 0x00000012 ∨ cmd = 0x00000022 ∨ cmd = 0x00000032 ∨ cmd = 0x00000042 := by
  have htr := transaction_of_decode h
  cases i with
  | init => obtain ⟨_, hcommand⟩ := htr; cases hcommand; exact .inl rfl
  | final => obtain ⟨_, hcommand⟩ := htr; cases hcommand; exact .inr (.inl rfl)
  | update cnt d =>
    obtain ⟨hcnt, hcommand⟩ := htr
    cases hcommand
    exact .inr (.inr (packCmd_update_words hcnt))
  | rd raddr => cases htr

/-- Settles O9: a word that decodes to an instruction is one of the seven. -/
theorem legalCommandWords : Obligations.LegalCommandWords := by
  intro cmd data
  split_ifs with h h h h h h h
  iterate 7 rw [h]; rfl
  · cases hd : decode (.command cmd data) with
    | illegal why => exact ⟨why, rfl⟩
    | instr i => rcases command_words_of_decode hd with h | h | h | h | h | h | h <;> contradiction

/-- Settles O11. -/
theorem sampleWordsDecode : Obligations.SampleWordsDecode := by
  unfold Obligations.SampleWordsDecode
  decide

end Sys2Proof
end

section
/-! PROOFS. An illegal command is a usage error (30_encoding.md rule R76, 60_exceptions.md rules R161 and R163: O10). -/

namespace Sys2Proof.Machine

/-- Rule R76's list of reserved OPs and illegal CNTs is what rule R75's predicate leaves out, checked at each OP and CNT. -/
theorem illegal_op_cnt_iff (op : BitVec 4) (cnt : BitVec 3) :
    (op = 0 ∨ 4 ≤ op ∨ (op = 2 ∧ 5 ≤ cnt) ∨ ((op = 1 ∨ op = 3) ∧ cnt ≠ 0)) ↔
      ¬ ((op = 1 ∧ cnt = 0) ∨ (op = 2 ∧ cnt ≤ 4) ∨ (op = 3 ∧ cnt = 0)) := by
  revert op cnt
  decide

theorem legalCmd_eq_false_iff {cmd : Word} :
    legalCmd cmd = false ↔
      cmdOp cmd = 0 ∨ 4 ≤ cmdOp cmd ∨ cmdRsv cmd ≠ 0 ∨ (cmdOp cmd = 2 ∧ 5 ≤ cmdCnt cmd) ∨
        ((cmdOp cmd = 1 ∨ cmdOp cmd = 3) ∧ cmdCnt cmd ≠ 0) := by
  rw [← Bool.not_eq_true, legalCmd_iff, not_and_or, ← illegal_op_cnt_iff]
  tauto

theorem serveTransaction_of_not_legalCmd {cmd : Word} (h : legalCmd cmd = false) (data : Word) (s : State) :
    serveTransaction (.command cmd data) s = .next (raiseUsageError .illegalCmd s) := by
  obtain ⟨why, hd⟩ := (decode_illegal_iff cmd data).mpr h
  rw [serveTransaction, hd]

/-- Settles O10. -/
theorem illegalCommandIsUsageError : Obligations.IllegalCommandIsUsageError := by
  intro s cmd data rest hp
  refine ⟨legalCmd_eq_false_iff.symm, fun hlegal => ?_⟩
  rw [step, acceptNext, hp]
  exact serveTransaction_of_not_legalCmd hlegal data (setPending rest s)

end Sys2Proof.Machine
end

section
/-! PROOFS. The bytes an UPDATE carries, and the UPDATEs that ABSORB expands to (30_encoding.md rules R73 and R82: O12, O47). -/

namespace Sys2Proof.Machine

theorem updateBytes_congr {cnt : BitVec 3} {d d' : Word} (h : ∀ j < cnt.toNat, lane d j = lane d' j) :
    updateBytes cnt d = updateBytes cnt d' :=
  List.map_congr_left fun j hj => h j (List.mem_range.mp hj)

/-- UPDATE reads DATA through the bytes it carries alone. -/
theorem exec_update_congr {cnt : BitVec 3} {d d' : Word} (h : updateBytes cnt d = updateBytes cnt d') (s : State) :
    exec (.update cnt d) s = exec (.update cnt d') s := by
  rw [exec, exec, execUpdate, execUpdate, h]

/-- Settles O12: legality is a predicate of CMD, and the result depends on the carried bytes. -/
theorem updateCarriesLeadingLanes : Obligations.UpdateCarriesLeadingLanes := by
  refine ⟨fun d => ⟨rfl, rfl, rfl, rfl, rfl⟩, fun cmd d d' => ?_, fun cnt d d' s _ hlanes => ?_⟩
  · rw [decode_illegal_iff, decode_illegal_iff]
  · exact exec_update_congr (updateBytes_congr hlanes) s

/-- `be32` puts each byte in the lane of its position: each cut of the concatenation below a byte drops the byte under it. -/
theorem lanes_be32 (b0 b1 b2 b3 : Byte) :
    lane (be32 b0 b1 b2 b3) 0 = b0 ∧ lane (be32 b0 b1 b2 b3) 1 = b1 ∧
    lane (be32 b0 b1 b2 b3) 2 = b2 ∧ lane (be32 b0 b1 b2 b3) 3 = b3 := by
  refine ⟨?_, ?_, ?_, ?_⟩ <;> rw [lane, be32]
  · iterate 3 rw [BitVec.extractLsb'_append_eq_of_le (by decide)]
    exact BitVec.extractLsb'_eq_self
  · iterate 2 rw [BitVec.extractLsb'_append_eq_of_le (by decide)]
    exact BitVec.extractLsb'_append_eq_right
  · rw [BitVec.extractLsb'_append_eq_of_le (by decide)]
    exact BitVec.extractLsb'_append_eq_right
  · exact BitVec.extractLsb'_append_eq_right

theorem wordBytes_be32 (b0 b1 b2 b3 : Byte) : wordBytes (be32 b0 b1 b2 b3) = [b0, b1, b2, b3] := by
  obtain ⟨h0, h1, h2, h3⟩ := lanes_be32 b0 b1 b2 b3
  simp [wordBytes, List.range_succ, h0, h1, h2, h3]

theorem updateBytes_eq_take {cnt : BitVec 3} (hcnt : cnt ≤ 4) (data : Word) :
    updateBytes cnt data = (wordBytes data).take cnt.toNat := by
  rw [updateBytes, wordBytes, ← List.map_take, List.take_range, Nat.min_eq_left (show cnt.toNat ≤ 4 from hcnt)]

/-- An UPDATE that packs four bytes carries the first CNT of them. -/
theorem carriedBytes_update_be32 {cnt : BitVec 3} (hcnt : cnt ≤ 4) (b0 b1 b2 b3 : Byte) :
    carriedBytes (.update cnt (be32 b0 b1 b2 b3)) = [b0, b1, b2, b3].take cnt.toNat := by
  rw [carriedBytes, updateBytes_eq_take hcnt, wordBytes_be32]

theorem all_isUpdate_absorbInstrs (bytes : List Byte) : (absorbInstrs bytes).all isUpdate = true := by
  induction bytes using absorbInstrs.induct with
  | case1 | case2 | case3 | case4 => rfl
  | case5 b0 b1 b2 b3 rest ih => exact ih

theorem flatMap_carriedBytes_absorbInstrs (bytes : List Byte) : (absorbInstrs bytes).flatMap carriedBytes = bytes := by
  induction bytes using absorbInstrs.induct with
  | case1 => rfl
  | case2 b0 => exact carriedBytes_update_be32 (cnt := 1) (by decide) b0 0 0 0
  | case3 b0 b1 => exact carriedBytes_update_be32 (cnt := 2) (by decide) b0 b1 0 0
  | case4 b0 b1 b2 => exact carriedBytes_update_be32 (cnt := 3) (by decide) b0 b1 b2 0
  | case5 b0 b1 b2 b3 rest ih =>
    rw [absorbInstrs, List.flatMap_cons, ih, carriedBytes_update_be32 (by decide)]
    rfl

theorem length_absorbInstrs (bytes : List Byte) : (absorbInstrs bytes).length = (bytes.length + 3) / 4 := by
  induction bytes using absorbInstrs.induct with
  | case1 | case2 | case3 | case4 => simp [absorbInstrs]
  | case5 b0 b1 b2 b3 rest ih =>
    simp only [absorbInstrs, List.length_cons, ih]
    omega

/-- Settles O47. -/
theorem absorbExpansionCarriesTheString : Obligations.AbsorbExpansionCarriesTheString := fun bytes =>
  ⟨all_isUpdate_absorbInstrs bytes, flatMap_carriedBytes_absorbInstrs bytes, length_absorbInstrs bytes⟩

end Sys2Proof.Machine
end

section
/-! PROOFS. What placing a list of bytes writes in BUF and leaves pending, and how many zero bytes the padding has (40_commands.md
rules R100 and R102). -/

namespace Sys2Proof.Machine

@[simp] theorem pendingBytes_setPhase (p : Phase) (s : State) : pendingBytes (setPhase p s) = pendingBytes s := rfl
@[simp] theorem pendingBytes_setBitlen (L : BitVec 64) (s : State) : pendingBytes (setBitlen L s) = pendingBytes s := rfl

theorem updateBytes_getElem? {cnt : BitVec 3} {j : Nat} (hj : j < cnt.toNat) (data : Word) :
    (updateBytes cnt data)[j]? = some (lane data j) := by
  simp [updateBytes, hj]

theorem pendingBytes_append_length (s : State) (bs : List Byte) :
    (pendingBytes s ++ bs).length = s.bufcnt.toNat + bs.length := by
  rw [List.length_append, pendingBytes_length]

theorem pendingBytes_placeAll_of_lt {bs : List Byte} {s : State} (h : s.bufcnt.toNat + bs.length < 64) :
    pendingBytes (placeAll bs s) = pendingBytes s ++ bs := by
  rw [(placeAll_stream bs s).2, pendingBytes_append_length, Nat.div_eq_of_lt h]
  rfl

/-- Where the bytes complete just one block. -/
theorem placeAll_one_block {bs : List Byte} {s : State} (hge : 64 ≤ s.bufcnt.toNat + bs.length)
    (hlt : s.bufcnt.toNat + bs.length < 128) :
    (placeAll bs s).h = compressHash (blockAt (pendingBytes s ++ bs) 0) s.h ∧
    pendingBytes (placeAll bs s) = (pendingBytes s ++ bs).drop 64 := by
  obtain ⟨hH, hP⟩ := placeAll_stream bs s
  rw [pendingBytes_append_length, show (s.bufcnt.toNat + bs.length) / 64 = 1 by omega] at hH hP
  exact ⟨hH, hP⟩

theorem place_bufcnt_toNat (b : Byte) (s : State) : (place b s).bufcnt.toNat = (s.bufcnt.toNat + 1) % 64 := by
  rw [place_bufcnt]
  exact BitVec.toNat_add s.bufcnt 1

/-- While no block is completed, BUF and BUFCNT are all that is written. -/
theorem placeAll_eq_of_lt {bs : List Byte} {s : State} (h : s.bufcnt.toNat + bs.length < 64) :
    ∃ n B, placeAll bs s = setBufcnt n (setBuf B s) := by
  induction bs generalizing s with
  | nil => exact ⟨s.bufcnt, s.buf, rfl⟩
  | cons b bs ih =>
    rw [List.length_cons] at h
    have hcnt := place_bufcnt_toNat b s
    obtain ⟨n, B, hrest⟩ := ih (s := place b s) (by omega)
    exact ⟨n, B, by rw [placeAll_cons, hrest, place_of_lt b s (by omega)]; rfl⟩

/-- The cells counted from BUFCNT on, after one byte is placed. -/
theorem place_bufcnt_add_mod (b : Byte) (s : State) (j : Nat) :
    ((place b s).bufcnt.toNat + j) % 64 = (s.bufcnt.toNat + (j + 1)) % 64 := by
  rw [place_bufcnt_toNat]
  omega

theorem place_buf_getElem? (b : Byte) (s : State) (c : Nat) :
    (place b s).buf[c]? = if c = s.bufcnt.toNat then some b else s.buf[c]? := by
  rw [place_buf, bufWith, Vector.getElem?_set]
  simp only [eq_comm]

theorem placeAll_buf_of_ne {bs : List Byte} {s : State} {c : Nat}
    (hc : ∀ j < bs.length, c ≠ (s.bufcnt.toNat + j) % 64) : (placeAll bs s).buf[c]? = s.buf[c]? := by
  induction bs generalizing s with
  | nil => rfl
  | cons b bs ih =>
    have hfirst : c ≠ s.bufcnt.toNat := by
      have := hc 0 (Nat.succ_pos _)
      rwa [Nat.add_zero, Nat.mod_eq_of_lt s.bufcnt.isLt] at this
    rw [placeAll_cons, ih, place_buf_getElem?, if_neg hfirst]
    intro j hj
    rw [place_bufcnt_add_mod]
    exact hc (j + 1) (Nat.succ_lt_succ hj)

/-- Up to 64 bytes go to as many cells, each to the next one, from the last cell on to the first. -/
theorem placeAll_buf_getElem? {bs : List Byte} {s : State} (hlen : bs.length ≤ 64) {j : Nat} (hj : j < bs.length) :
    (placeAll bs s).buf[(s.bufcnt.toNat + j) % 64]? = bs[j]? := by
  induction bs generalizing s j with
  | nil => cases hj
  | cons b bs ih =>
    rw [List.length_cons] at hlen hj
    rw [placeAll_cons]
    cases j with
    | zero =>
      have hlt := s.bufcnt.isLt
      rw [placeAll_buf_of_ne, place_buf_getElem?, if_pos (by omega)]
      · rfl
      · intro i hi
        rw [place_bufcnt_add_mod]
        omega
    | succ j =>
      rw [← place_bufcnt_add_mod b, ih (by omega) (by omega)]
      rfl

/-- The number of zero bytes that `pad` has, in the form of `paddedMessage`. -/
theorem pad_zeros_toNat (n : BitVec 6) : ((55 : BitVec 6) - n).toNat = (119 - n.toNat) % 64 := by
  have hsub : ((55 : BitVec 6) - n).toNat = (64 - n.toNat + 55) % 64 := BitVec.toNat_sub 55 n
  omega

end Sys2Proof.Machine
end

section
/-! PROOFS. INIT, and the parts of UPDATE and FINAL: `place`, `absorb` and the padding list (40_commands.md rules R100 to R102 and
R110: O15, O19, O20). -/

namespace Sys2Proof.Machine

/-- Settles O15: after INIT the words read are those of fixed fields, and DIGEST reads 0 in READY. -/
theorem initResult : Obligations.InitResult := by
  intro s
  have hstatus : readAt 0x00 (loadInitial s) =
      ((0 : BitVec 6) ++ (0 : BitVec 4) ++ errCodeValue .none ++ (0 : BitVec 5) ++ phaseCode .ready).setWidth 32 := rfl
  have hhi : readAt 0x08 (loadInitial s) = (0 : BitVec 64).extractLsb' 32 32 := rfl
  refine ⟨loadInitial s, rfl, rfl, hstatus.trans (by decide), rfl, hhi.trans (by decide), fun i => ?_, rfl⟩
  rw [readAt_digest, loadInitial_phase, if_neg (by decide)]

/-- Settles O19. -/
theorem paddingFillsTheBlock : Obligations.PaddingFillsTheBlock := by
  intro L n
  have hz := pad_zeros_toNat n
  have hlt := n.isLt
  have hfill := bufcnt_add_pad_length L n
  refine ⟨_, by omega, rfl, by omega, pad_length L n, ?_⟩
  split_ifs at hfill ⊢ <;> omega

/-- Settles O20, by whether the byte is the 64th. -/
theorem placeAndAbsorbOneByte : Obligations.PlaceAndAbsorbOneByte := by
  intro b s
  have h63 : s.bufcnt = 63 ↔ s.bufcnt.toNat = 63 := BitVec.toNat_inj.symm
  have hcnt := place_bufcnt_toNat b s
  refine ⟨place_buf b s, ?_, place_bitlen b s, place_phase b s, place_errcode b s, place_rdata b s, place_pending b s, rfl⟩
  rw [place_buf, place_h]
  split
  next hfull => exact ⟨by rw [place_bufcnt, hfull]; rfl, if_pos (h63.mp hfull)⟩
  next hnot =>
    rw [h63] at hnot
    exact ⟨by omega, if_neg hnot⟩

end Sys2Proof.Machine
end

section
/-! PROOFS. UPDATE and FINAL in sequence (40_commands.md rules R111 and R112: O16, O17, O18). -/

namespace Sys2Proof.Machine

theorem exec_update_inMessage {cnt : BitVec 3} {s : State} (hcnt : cnt ≤ 4) (hin : s.phase.inMessage = true) (data : Word) :
    exec (.update cnt data) s = .next (setPhase .absorbing (absorbAll (updateBytes cnt data) s)) :=
  execUpdate_inMessage cnt data s hcnt hin

theorem exec_final_inMessage {s : State} (hin : s.phase.inMessage = true) :
    exec .final s = .next (setPhase .finalized (flush s)) :=
  execFinal_inMessage s hin

/-- Settles O16, by whether the bytes complete a block. -/
theorem updateResult : Obligations.UpdateResult := by
  intro cnt data s hcnt hs
  have hk : cnt.toNat ≤ 4 := hcnt
  have hlen := updateBytes_length cnt data
  refine ⟨_, exec_update_inMessage hcnt (inMessage_iff.mpr hs) data, rfl, ?_, absorbAll_updateBytes_bitlen cnt data s, ?_⟩
  · rw [absorbAll_eq, setPhase_bufcnt, setBitlen_bufcnt, placeAll_bufcnt, hlen, BitVec.toNat_add, BitVec.toNat_ofNat,
      Nat.add_mod_mod]
  · rw [absorbAll_eq, setPhase_h, setBitlen_h, pendingBytes_setPhase, pendingBytes_setBitlen]
    split
    next hlt => exact ⟨placeAll_h_of_lt _ s (by omega), pendingBytes_placeAll_of_lt (by omega)⟩
    next hge => exact placeAll_one_block (by omega) (by omega)

/-- Settles O17. -/
theorem updateBufferAndFrame : Obligations.UpdateBufferAndFrame := by
  intro cnt data s hcnt hs
  have hk : cnt.toNat ≤ 4 := hcnt
  have hlen := updateBytes_length cnt data
  refine ⟨_, exec_update_inMessage hcnt (inMessage_iff.mpr hs) data, ?_⟩
  rw [absorbAll_eq]
  refine ⟨fun j hj => ?_, fun c _ hc => ?_, by simp, by simp, by simp, fun hlt => ?_⟩
  · rw [setPhase_buf, setBitlen_buf, placeAll_buf_getElem? (by omega) (by omega), updateBytes_getElem? hj, lane]
  · rw [setPhase_buf, setBitlen_buf]
    exact placeAll_buf_of_ne (by rwa [hlen])
  · obtain ⟨n, B, hplace⟩ := placeAll_eq_of_lt (bs := updateBytes cnt data) (s := s) (by omega)
    rw [hplace]
    exact ⟨rfl, rfl, rfl, rfl⟩

/-- Settles O18, by whether the padding completes one block or two. -/
theorem finalResult : Obligations.FinalResult := by
  intro s hs
  have hlen : (pendingBytes s ++ pad s.bitlen s.bufcnt).length = if s.bufcnt.toNat ≤ 55 then 64 else 128 := by
    rw [pendingBytes_append_length, bufcnt_add_pad_length]
  have hH := (placeAll_stream (pad s.bitlen s.bufcnt) s).1
  refine ⟨_, exec_final_inMessage (inMessage_iff.mpr hs), rfl, flush_bufcnt s, flush_bitlen s, flush_errcode s,
    flush_rdata s, flush_pending s, ?_, fun i => by rw [readAt_digest, setPhase_phase, if_pos rfl]⟩
  rw [setPhase_h, flush, hH]
  split_ifs at hlen ⊢ <;> exact ⟨hlen, by rw [hlen]; rfl⟩

end Sys2Proof.Machine
end

section
/-! PROOFS. However a message is cut into UPDATEs, its bytes are absorbed in order, and FINAL completes the SHA-256 of the whole
of it (40_commands.md rules R114 and R115: O45, O46). -/

namespace Sys2Proof.Machine

theorem execSeq_append_of_next {is : List Instr} {s u : State} (h : execSeq is s = .next u) (js : List Instr) :
    execSeq (is ++ js) s = execSeq js u := by
  induction is generalizing s with
  | nil => cases h; rfl
  | cons i is ih =>
    obtain ⟨s', hs'⟩ := exec_total i s
    rw [execSeq_cons_of_next hs'] at h
    rw [List.cons_append, execSeq_cons_of_next hs', ih h]

/-- PHASE after a list of UPDATEs from the phase `p` in sequence: only whether there is an UPDATE at all matters. -/
def phaseAfterUpdates (is : List Instr) (p : Phase) : Phase := if is = [] then p else .absorbing

theorem inMessage_phaseAfterUpdates {p : Phase} (hin : p.inMessage = true) (is : List Instr) :
    (phaseAfterUpdates is p).inMessage = true := by
  rw [phaseAfterUpdates]
  split
  · exact hin
  · rfl

@[simp] theorem phaseAfterUpdates_absorbing (is : List Instr) : phaseAfterUpdates is .absorbing = .absorbing := ite_self _

/-- UPDATEs in sequence absorb the bytes they carry, one after the other: how the bytes are cut shows in PHASE alone. -/
theorem execSeq_updates {is : List Instr} {s : State} (his : is.all isUpdate = true) (hin : s.phase.inMessage = true) :
    execSeq is s = .next (setPhase (phaseAfterUpdates is s.phase) (absorbAll (is.flatMap carriedBytes) s)) := by
  induction is generalizing s with
  | nil => rfl
  | cons i is ih =>
    rw [List.all_cons, Bool.and_eq_true] at his
    obtain ⟨hi, his⟩ := his
    cases i with
    | init | final | rd => cases hi
    | update cnt data =>
      rw [execSeq_cons_of_next (exec_update_inMessage (of_decide_eq_true hi) hin data), ih his rfl, absorbAll_with_phase,
        ← absorbAll_append, setPhase_phase, phaseAfterUpdates_absorbing]
      rfl

/-- `flush` neither reads nor writes PHASE. -/
theorem flush_with_phase (s : State) (p : Phase) : flush (setPhase p s) = setPhase p (flush s) :=
  placeAll_with_phase _ s p

/-- FINAL leaves the same state from either phase in sequence. -/
theorem exec_final_setPhase {p : Phase} (hp : p.inMessage = true) (s : State) :
    exec .final (setPhase p s) = .next (setPhase .finalized (flush s)) := by
  rw [exec_final_inMessage hp, flush_with_phase]
  rfl

/-- Settles O45: both lists absorb the same bytes, so the two states before FINAL differ in PHASE alone, and FINAL leaves the
same state. -/
theorem streamingEquivalence : Obligations.StreamingEquivalence := by
  intro s is is' hs his his' hbytes
  have hin := inMessage_iff.mpr hs
  have hu' := execSeq_updates his' hin
  rw [← hbytes] at hu'
  refine ⟨_, _, _, _, execSeq_updates his hin, hu', rfl, rfl, rfl, rfl, fun hphase => ?_,
    exec_final_setPhase (inMessage_phaseAfterUpdates hin is) _,
    exec_final_setPhase (inMessage_phaseAfterUpdates hin is') _, fun _ => rfl⟩
  rw [setPhase_phase, setPhase_phase]
  rcases hs with hready | habsorbing
  · have hempty : is = [] ↔ is' = [] := by tauto
    simp only [phaseAfterUpdates, hempty]
  · rw [habsorbing, phaseAfterUpdates_absorbing, phaseAfterUpdates_absorbing]

/-- With the count and the length of a whole message, `pad` is the padding of the message. -/
theorem append_pad_eq_paddedMessage (m : List Byte) :
    m ++ pad (BitVec.ofNat 64 (8 * m.length)) (BitVec.ofNat 6 m.length) = paddedMessage m := by
  rw [pad, pad_zeros_toNat, BitVec.toNat_ofNat, paddedMessage]

/-- After INIT nothing is pending and the counts are 0, so absorbing a message and flushing places the padded message. -/
theorem flush_absorbAll_loadInitial_h (m : List Byte) (s : State) :
    (flush (absorbAll m (loadInitial s))).h = sha256 m := by
  have hnone : pendingBytes (loadInitial s) = [] := rfl
  calc (flush (absorbAll m (loadInitial s))).h
      = (placeAll (m ++ pad (BitVec.ofNat 64 (8 * m.length)) (BitVec.ofNat 6 m.length)) (loadInitial s)).h := by
        rw [flush, absorbAll_eq, placeAll_with_bitlen, setBitlen_h, setBitlen_bitlen, setBitlen_bufcnt, placeAll_bufcnt,
          loadInitial_bitlen, loadInitial_bufcnt, zero_add, zero_add, placeAll_append]
    _ = sha256 m := by
        rw [append_pad_eq_paddedMessage, (placeAll_stream _ _).1, hnone, List.nil_append, loadInitial_h, sha256]

/-- INIT, UPDATEs and FINAL absorb the message from INIT's state on and flush. -/
theorem execSeq_message {is : List Instr} (his : is.all isUpdate = true) (s : State) :
    execSeq (.init :: is ++ [.final]) s =
      .next (setPhase .finalized (flush (absorbAll (is.flatMap carriedBytes) (loadInitial s)))) := by
  have hinit : exec .init s = .next (loadInitial s) := rfl
  rw [List.cons_append, execSeq_cons_of_next hinit, execSeq_append_of_next (execSeq_updates his rfl),
    execSeq_cons_of_next (exec_final_setPhase (inMessage_phaseAfterUpdates rfl is) _)]
  rfl

/-- Settles O46. -/
theorem digestIsSha256OfTheMessage : Obligations.DigestIsSha256OfTheMessage := by
  rintro s is m his rfl
  refine ⟨_, execSeq_message his s, ?_, fun i => ?_, ?_⟩
  · simp [State.digestReady, absorbAll_eq]
  · rw [readAt_digest, setPhase_phase, if_pos rfl, setPhase_h, flush_absorbAll_loadInitial_h]
  · rw [setPhase_bitlen, flush_bitlen, absorbAll_eq, setBitlen_bitlen, loadInitial_bitlen, zero_add]

end Sys2Proof.Machine
end

section
/-! PROOFS. The compression core: the words of the schedule, the rounds, and what `compress` reads and writes (41_compression.md
rules R140 to R147: O31, O32, O33). -/

namespace Sys2Proof.Machine

theorem blockWords_getElem (B : Vector Byte 64) (t : Nat) (ht : t < 16) :
    (blockWords B)[t] = be32 B[4 * t] B[4 * t + 1] B[4 * t + 2] B[4 * t + 3] := by
  simp [blockWords, ht]

/-- Filling in one more word leaves the words before it. -/
theorem scheduleUpTo_succ_getElem_of_lt (B : Vector Byte 64) {n t : Nat} (hn : n + 1 ≤ 48) (ht : t < n + 16) :
    (scheduleUpTo B (n + 1) hn)[t] = (scheduleUpTo B n (Nat.le_of_succ_le hn))[t] := by
  rw [scheduleUpTo, Vector.getElem_set_ne _ _ (by omega)]

/-- The word filled in is the recurrence of 41_compression.md rule R142 on the words before it. -/
theorem scheduleUpTo_succ_getElem_self (B : Vector Byte 64) {n : Nat} (hn : n + 1 ≤ 48) :
    (scheduleUpTo B (n + 1) hn)[n + 16] =
      smallSigma1 (scheduleUpTo B n (Nat.le_of_succ_le hn))[n + 14] + (scheduleUpTo B n (Nat.le_of_succ_le hn))[n + 9] +
        smallSigma0 (scheduleUpTo B n (Nat.le_of_succ_le hn))[n + 1] + (scheduleUpTo B n (Nat.le_of_succ_le hn))[n] := by
  rw [scheduleUpTo, Vector.getElem_set_self]

/-- A word once filled in is the schedule's: no later step writes it. -/
theorem scheduleUpTo_getElem_eq_schedule (B : Vector Byte 64) {n t : Nat} (hn : n ≤ 48) (ht : t < n + 16) :
    (scheduleUpTo B n hn)[t] = (schedule B)[t] := by
  induction hn using Nat.decreasingInduction with
  | self => rw [schedule_eq]
  | of_succ k hk ih => rw [← ih (by omega), scheduleUpTo_succ_getElem_of_lt B hk ht]

theorem schedule_getElem_of_lt (B : Vector Byte 64) (t : Nat) (ht : t < 16) :
    (schedule B)[t] = be32 B[4 * t] B[4 * t + 1] B[4 * t + 2] B[4 * t + 3] := by
  rw [← scheduleUpTo_getElem_eq_schedule B (Nat.zero_le 48) (by omega), scheduleUpTo, blockWords_getElem B t ht]

theorem schedule_recurrence (B : Vector Byte 64) (n : Nat) (hn : n < 48) :
    (schedule B)[n + 16] =
      smallSigma1 (schedule B)[n + 14] + (schedule B)[n + 9] + smallSigma0 (schedule B)[n + 1] + (schedule B)[n] := by
  have before {t : Nat} (ht : t < n + 16) : (scheduleUpTo B n (Nat.le_of_lt hn))[t] = (schedule B)[t] :=
    scheduleUpTo_getElem_eq_schedule B _ ht
  rw [← scheduleUpTo_getElem_eq_schedule B (n := n + 1) hn (by omega), scheduleUpTo_succ_getElem_self B hn,
    before (by omega), before (by omega), before (by omega), before (by omega)]

/-- Settles O31, with `t = n + 16` in the recurrence. -/
theorem scheduleWords : Obligations.ScheduleWords := by
  refine fun B => ⟨schedule_getElem_of_lt B, fun t ht h16 => ?_⟩
  obtain ⟨n, rfl⟩ := Nat.exists_eq_add_of_le' h16
  exact schedule_recurrence B n (by omega)

theorem varsAfter_zero (W : Vector Word 64) (H : Vector Word 8) :
    varsAfter W H 0 (Nat.zero_le 64) = initVars H := rfl

theorem varsAfter_succ (W : Vector Word 64) (H : Vector Word 8) {t : Nat} (ht : t < 64) :
    varsAfter W H (t + 1) ht = roundStep roundConstants[t] W[t] (varsAfter W H t (Nat.le_of_lt ht)) := rfl

/-- Settles O32: the start, one round, and the sum of H and the variables after round 63. -/
theorem roundEquations : Obligations.RoundEquations := by
  refine fun B H => ⟨varsAfter_zero (schedule B) H, ?_, ?_⟩
  · rintro t ht v rfl T1 T2 rfl rfl
    rw [varsAfter_succ, roundStep]
  · rintro v rfl
    exact ⟨finalVars_eq B H, by rw [compressHash_eq, finalVars_eq, accumulate]⟩

/-- Settles O33: H and the scratch are those of the block and H, and every other field is the state's own. -/
theorem compressReadsAndWritesOnlyItsOwn : Obligations.CompressReadsAndWritesOnlyItsOwn := by
  refine fun B s s' => ⟨compress_h B s, fun hH => ⟨?_, ?_, ?_, ?_⟩, compress_buf B s, compress_bufcnt B s,
    compress_bitlen B s, compress_phase B s, compress_errcode B s, compress_pending B s, compress_rdata B s⟩
  · rw [compress_h, compress_h, hH]
  · rw [compress_w, compress_w]
  · rw [compress_vars, compress_vars, hH]
  · rw [compress_t, compress_t]

end Sys2Proof.Machine
end

section
/-! PROOFS. The command result table, how FAULT is left, waiting, and that no step stops (60_exceptions.md rules R161 to R166, R174
and R175: O2, O4, O21, O38). -/

namespace Sys2Proof.Machine

/-- Settles O2. -/
theorem waitingHoldsState : Obligations.WaitingHoldsState := by
  intro s hp
  rw [step, acceptNext, hp]

/-- Settles O4. -/
theorem everyStepAnswers : Obligations.EveryStepAnswers := ⟨step_total, exec_total⟩

/-- Outside FAULT a usage error is the first one, and its code is recorded (60_exceptions.md rule R161). -/
theorem raiseUsageError_of_not_fault {s : State} (hs : s.phase ≠ .fault) (code : ErrCode) :
    raiseUsageError code s = { s with phase := .fault, errcode := code } := by
  rw [raiseUsageError, if_neg hs]

theorem exec_update_of_uninit {s : State} (hs : s.phase = .uninit) {cnt : BitVec 3} (hcnt : cnt ≤ 4) (data : Word) :
    exec (.update cnt data) s = .next (raiseUsageError .updateBeforeInit s) := by
  rw [exec, execUpdate, if_neg (BitVec.not_lt.mpr hcnt), hs]

theorem exec_update_of_finalized {s : State} (hs : s.phase = .finalized) {cnt : BitVec 3} (hcnt : cnt ≤ 4) (data : Word) :
    exec (.update cnt data) s = .next (raiseUsageError .updateAfterFinal s) := by
  rw [exec, execUpdate, if_neg (BitVec.not_lt.mpr hcnt), hs]

theorem exec_final_of_uninit {s : State} (hs : s.phase = .uninit) :
    exec .final s = .next (raiseUsageError .finalBeforeInit s) := by
  rw [exec, execFinal, hs]

theorem exec_final_of_finalized {s : State} (hs : s.phase = .finalized) :
    exec .final s = .next (raiseUsageError .finalAfterFinal s) := by
  rw [exec, execFinal, hs]

theorem exec_final_of_fault {s : State} (hs : s.phase = .fault) : exec .final s = .next s := by
  simp only [exec, execFinal, hs, raiseUsageError_of_fault]

/-- Settles O21: the column of each command, by the phase. -/
theorem commandResultTable : Obligations.CommandResultTable := by
  intro s
  refine ⟨⟨loadInitial s, rfl, rfl, rfl⟩, fun cnt data hcnt => ?_, ?_, fun cmd data hlegal => ?_⟩
  · cases hs : s.phase with
    | uninit => rw [exec_update_of_uninit hs hcnt, raiseUsageError_of_not_fault (by simp [hs])]
    | ready => exact exec_update_inMessage hcnt (inMessage_iff.mpr (.inl hs)) data
    | absorbing => exact exec_update_inMessage hcnt (inMessage_iff.mpr (.inr hs)) data
    | finalized => rw [exec_update_of_finalized hs hcnt, raiseUsageError_of_not_fault (by simp [hs])]
    | fault => exact exec_update_of_fault hs cnt data
  · cases hs : s.phase with
    | uninit => rw [exec_final_of_uninit hs, raiseUsageError_of_not_fault (by simp [hs])]
    | ready => exact exec_final_inMessage (inMessage_iff.mpr (.inl hs))
    | absorbing => exact exec_final_inMessage (inMessage_iff.mpr (.inr hs))
    | finalized => rw [exec_final_of_finalized hs, raiseUsageError_of_not_fault (by simp [hs])]
    | fault => exact exec_final_of_fault hs
  · rw [serveTransaction_of_not_legalCmd hlegal]
    split
    next hs => rw [raiseUsageError_of_fault hs]
    next hs => rw [raiseUsageError_of_not_fault hs]

/-- Settles O38, by the cases of a step: in FAULT no UPDATE or FINAL is in sequence, and a rejection keeps the first cause. -/
theorem onlyInitOrResetLeavesFault : Obligations.OnlyInitOrResetLeavesFault := by
  intro s u hs hstep
  cases stepEffect_of_step hstep with
  | wait | read => exact .inl ⟨hs, rfl, rfl, rfl, rfl, rfl⟩
  | reset hp => exact .inr (.inr ⟨_, _, hp, rfl, rfl⟩)
  | error => exact .inl ⟨rfl, by simp [hs], rfl, rfl, rfl, rfl⟩
  | init hp => exact .inr (.inl ⟨_, _, hp, rfl, rfl, rfl, rfl, rfl⟩)
  | update _ _ hin | final _ hin => simp [hs, Phase.inMessage] at hin

end Sys2Proof.Machine
end

section
/-! PROOFS. Reset, and how many compressions UPDATE, FINAL and RD perform (70_reset_and_hazards.md rules R190 and R196: O1, O22). -/

namespace Sys2Proof.Machine

/-- The reset event is served whatever command was in progress (70_reset_and_hazards.md rule R190). -/
theorem step_of_reset {s : State} {inProgress : Option Transaction} {rest : List HostEvent}
    (hp : s.pending = .reset inProgress :: rest) : step s = .next (applyReset (setPending rest s)) := by
  simp only [step, acceptNext, hp, serveEvent]

/-- Settles O1. -/
theorem resetLeavesUninitAndZeroCounts : Obligations.ResetLeavesUninitAndZeroCounts :=
  ⟨⟨reset_phase, reset_errcode, reset_bufcnt, reset_bitlen⟩, fun s _ rest hp =>
    ⟨applyReset (setPending rest s), step_of_reset hp, rfl, rfl, rfl, rfl⟩⟩

/-- The hash state `H'` is `H` with `n` blocks compressed into it, in order. -/
def CompressedTimes (n : Nat) (H H' : Vector Word 8) : Prop :=
  ∃ blocks : List (Vector Byte 64), blocks.length = n ∧ H' = blocks.foldl (fun H B => compressHash B H) H

theorem compressedTimes_zero (H : Vector Word 8) : CompressedTimes 0 H H := ⟨[], rfl, rfl⟩

theorem hashBlocks_eq_foldl (l : List Byte) (H : Vector Word 8) (n : Nat) :
    hashBlocks l H n = ((List.range n).map (blockAt l)).foldl (fun H B => compressHash B H) H := by
  induction n with
  | zero => rfl
  | succ n ih => rw [hashBlocks, ih, List.range_succ, List.map_append, List.foldl_append]; rfl

/-- Placing bytes performs one compression for every 64 bytes, those already pending counted in (40_commands.md rule R100). -/
theorem compressedTimes_placeAll (bs : List Byte) (s : State) :
    CompressedTimes ((s.bufcnt.toNat + bs.length) / 64) s.h (placeAll bs s).h := by
  refine ⟨(List.range ((s.bufcnt.toNat + bs.length) / 64)).map (blockAt (pendingBytes s ++ bs)), by simp, ?_⟩
  rw [(placeAll_stream bs s).1, pendingBytes_append_length, hashBlocks_eq_foldl]

/-- At most 4 bytes beside fewer than 64 pending ones complete one block or none (40_commands.md rule R111). -/
theorem compressionCount_update {cnt : BitVec 3} {s : State} (hcnt : cnt ≤ 4) (hin : s.phase.inMessage = true) (data : Word) :
    compressionCount (.update cnt data) s = (s.bufcnt.toNat + (updateBytes cnt data).length) / 64 := by
  have hk : cnt.toNat ≤ 4 := hcnt
  have hlt := s.bufcnt.isLt
  rw [updateBytes_length, compressionCount]
  simp only [hin, true_and]
  split <;> omega

/-- The padding completes one block or two (40_commands.md rule R102). -/
theorem compressionCount_final {s : State} (hin : s.phase.inMessage = true) :
    compressionCount .final s = (s.bufcnt.toNat + (pad s.bitlen s.bufcnt).length) / 64 := by
  rw [bufcnt_add_pad_length, compressionCount, if_pos hin]
  split <;> rfl

theorem compressionCount_of_not_inMessage {s : State} (hout : ¬ s.phase.inMessage = true) (i : Instr) :
    compressionCount i s = 0 := by
  cases i with
  | init | rd => rfl
  | update => exact if_neg fun h => hout h.1
  | final => exact if_neg hout

/-- Out of sequence UPDATE and FINAL are rejected, so only INIT writes H (60_exceptions.md rules R161 and R162). -/
theorem exec_h_of_not_inMessage {i : Instr} {s u : State} (hx : exec i s = .next u) (hi : i ≠ .init)
    (hout : ¬ s.phase.inMessage = true) : u.h = s.h := by
  rcases exec_next_cases hx with ⟨hinit, _⟩ | ⟨_, _, rfl⟩ | ⟨_, _, _, _, hin, _⟩ | ⟨_, hin, _⟩ | ⟨_, _, rfl⟩
  · exact absurd hinit hi
  · rfl
  · exact absurd hin hout
  · exact absurd hin hout
  · rfl

/-- In sequence UPDATE and FINAL place their bytes, and a read writes the port's answer alone. -/
theorem exec_compressedTimes_of_inMessage {i : Instr} {s u : State} (hx : exec i s = .next u) (hwf : i.WellFormed)
    (hi : i ≠ .init) (hin : s.phase.inMessage = true) : CompressedTimes (compressionCount i s) s.h u.h := by
  cases i with
  | init => exact absurd rfl hi
  | update cnt data =>
    have hcnt : cnt ≤ 4 := of_decide_eq_true hwf
    rw [exec_update_inMessage hcnt hin] at hx
    cases hx
    rw [compressionCount_update hcnt hin, absorbAll_eq]
    exact compressedTimes_placeAll _ s
  | final =>
    rw [exec_final_inMessage hin] at hx
    cases hx
    rw [compressionCount_final hin]
    exact compressedTimes_placeAll _ s
  | rd raddr =>
    cases hx
    exact compressedTimes_zero s.h

/-- Settles O22, by whether the phase is in sequence. -/
theorem compressionsPerInstruction : Obligations.CompressionsPerInstruction := by
  intro i s hwf hi
  obtain ⟨u, hu⟩ := exec_total i s
  refine ⟨u, hu, ?_⟩
  by_cases hin : s.phase.inMessage = true
  · exact exec_compressedTimes_of_inMessage hu hwf hi hin
  · rw [compressionCount_of_not_inMessage hin, exec_h_of_not_inMessage hu hi hin]
    exact compressedTimes_zero s.h

end Sys2Proof.Machine
end
